-- ==== Sys2Proof/Word.lean ====
section
/-! DEFINITION. The word types of GF2LA: 32-bit bus and command words, 16-bit vector words and matrix rows
(00_scope.md R9), bytes of a bus word (20_memory.md R44), and register numbers. -/

namespace Sys2Proof

/-- A bus word or command word (00_scope.md R9: "every bus word and command word is 32 bits"). -/
abbrev Word := BitVec 32

/-- A vector word or one matrix row, NMAX = 16 bits; bit c is element c (00_scope.md R7, R9). -/
abbrev Row := BitVec 16

/-- One byte lane of a bus word (20_memory.md R44). -/
abbrev Byte := BitVec 8

/-- The number of a vector register v0 to v7 (10_state.md R16). -/
abbrev VReg := Fin 8

/-- The number of a matrix register m0 to m7 (10_state.md R17). -/
abbrev MReg := Fin 8

end Sys2Proof
end

