-- ==== Sys2Proof/Syntax.lean ====
section
/-! DEFINITION. The command set: one constructor for each row of spec/opcode_table.json (30_encoding.md R62), with
the operands of its assembly syntax in that order (R68). -/

namespace Sys2Proof

/-- A command (00_scope.md R11), operands in the order of 30_encoding.md R68. Register fields are register numbers
(every value is legal, R65). A length, dimension or row index is the number in its field; that it fits the field is
checked by `Instr.wellFormed`, and whether it is legal for the operands is checked when the command executes (R66). -/
inductive Instr where
  /-- LDV vd, imm, len (40_vector.md R74). -/
  | ldv (d : VReg) (imm : Row) (len : Nat)
  /-- RDV va (40_vector.md R75). -/
  | rdv (a : VReg)
  /-- VXOR vd, va, vb (40_vector.md R76). -/
  | vxor (d a b : VReg)
  /-- VDOT vd, va, vb (40_vector.md R77). -/
  | vdot (d a b : VReg)
  /-- VMUL vd, va, mb (40_vector.md R78). -/
  | vmul (d a : VReg) (b : MReg)
  /-- IDENT md, dim (41_matrix.md R81). -/
  | ident (d : MReg) (dim : Nat)
  /-- MMOV md, ma (41_matrix.md R82). -/
  | mmov (d a : MReg)
  /-- MWR md, row, va (41_matrix.md R83). -/
  | mwr (d : MReg) (i : Nat) (a : VReg)
  /-- MRD vd, ma, row (41_matrix.md R84). -/
  | mrd (d : VReg) (a : MReg) (i : Nat)
  /-- SWAPR md, i, j (41_matrix.md R85). -/
  | swapr (d : MReg) (i j : Nat)
  /-- XORR md, i, j (41_matrix.md R86): row i is written, row j is read. -/
  | xorr (d : MReg) (i j : Nat)
  /-- INV md, ma (42_inversion.md R88). -/
  | inv (d a : MReg)
  deriving DecidableEq, Repr

/-- One row of the opcode map of 30_encoding.md R62: a word w is the row's command when w and mask = pattern
(the map's "match"). -/
structure TableRow where
  mnemonic : String
  op       : BitVec 6
  pattern  : Word
  mask     : Word
  deriving DecidableEq, Repr

/-- Why a word (or a byte sequence) is no command. Both kinds of illegal word raise ILLEGAL_CMD when the word
executes (60_exceptions.md R98, R99). -/
inductive Reject where
  /-- The opcode is unassigned or reserved (30_encoding.md R63). -/
  | unassignedOpcode (op : BitVec 6)
  /-- The opcode is assigned but a reserved bit is not zero (30_encoding.md R64). -/
  | reservedBits (w : Word)
  /-- Fewer than four bytes: every command is one 32-bit word (30_encoding.md R57). -/
  | truncated
  deriving DecidableEq, Repr

end Sys2Proof
end

