-- ==== Sys2Proof/WellFormed.lean ====
section
/-! DEFINITION. When a command's operands fit its fields (30_encoding.md R60, R61, R68: "An assembler rejects an
operand that does not fit its field"). Register numbers and the immediate fit by their types. -/

namespace Sys2Proof

/-- The number fits the 5-bit field L (30_encoding.md R60: 0 to 31). -/
def fitsL (n : Nat) : Bool := decide (n < 32)

/-- The number fits a 4-bit row-index field i or j (30_encoding.md R61: 0 to 15). -/
def fitsRow (n : Nat) : Bool := decide (n < 16)

/-- Every operand fits its field. -/
def Instr.wellFormed : Instr → Bool
  | .ldv _ _ len => fitsL len
  | .rdv _ => true
  | .vxor _ _ _ => true
  | .vdot _ _ _ => true
  | .vmul _ _ _ => true
  | .ident _ dim => fitsL dim
  | .mmov _ _ => true
  | .mwr _ i _ => fitsRow i
  | .mrd _ _ i => fitsRow i
  | .swapr _ i j => fitsRow i && fitsRow j
  | .xorr _ i j => fitsRow i && fitsRow j
  | .inv _ _ => true

end Sys2Proof
end

