-- ==== Sys2Proof/Decode.lean ====
section
/-! DEFINITION. Decoding and encoding of command words (30_encoding.md R57 to R67, R71). Decoding is total, reads
only the word (R67), and rejects by name; the encoder after it is written from the formula of R71. -/

namespace Sys2Proof

/-! ### Fields of a word (30_encoding.md R58 to R61, R66) -/

/-- op, bits 31:26 (R58). -/
def opField (w : Word) : BitVec 6 := w.extractLsb' 26 6
/-- d, bits 25:23 (R58). -/
def dField (w : Word) : Fin 8 := (w.extractLsb' 23 3).toFin
/-- a, bits 22:20 (R58). -/
def aField (w : Word) : Fin 8 := (w.extractLsb' 20 3).toFin
/-- b, bits 19:17 (R59). -/
def bField (w : Word) : Fin 8 := (w.extractLsb' 17 3).toFin
/-- L, bits 20:16, unsigned (R60). -/
def lField (w : Word) : Nat := (w.extractLsb' 16 5).toNat
/-- imm, bits 15:0, unsigned (R60). -/
def immField (w : Word) : Row := w.extractLsb' 0 16
/-- i, bits 7:4, unsigned (R61). -/
def iField (w : Word) : Nat := (w.extractLsb' 4 4).toNat
/-- j, bits 3:0, unsigned (R61). -/
def jField (w : Word) : Nat := (w.extractLsb' 0 4).toNat

/-! ### The opcode map (30_encoding.md R62) -/

def rowLdv   : TableRow := ⟨"LDV",   0x01, 0x04000000, 0xFC600000⟩
def rowRdv   : TableRow := ⟨"RDV",   0x02, 0x08000000, 0xFF8FFFFF⟩
def rowVxor  : TableRow := ⟨"VXOR",  0x03, 0x0C000000, 0xFC01FFFF⟩
def rowVdot  : TableRow := ⟨"VDOT",  0x04, 0x10000000, 0xFC01FFFF⟩
def rowVmul  : TableRow := ⟨"VMUL",  0x05, 0x14000000, 0xFC01FFFF⟩
def rowIdent : TableRow := ⟨"IDENT", 0x08, 0x20000000, 0xFC60FFFF⟩
def rowMmov  : TableRow := ⟨"MMOV",  0x09, 0x24000000, 0xFC0FFFFF⟩
def rowMwr   : TableRow := ⟨"MWR",   0x0A, 0x28000000, 0xFC0FFF0F⟩
def rowMrd   : TableRow := ⟨"MRD",   0x0B, 0x2C000000, 0xFC0FFF0F⟩
def rowSwapr : TableRow := ⟨"SWAPR", 0x0C, 0x30000000, 0xFC7FFF00⟩
def rowXorr  : TableRow := ⟨"XORR",  0x0D, 0x34000000, 0xFC7FFF00⟩
def rowInv   : TableRow := ⟨"INV",   0x0E, 0x38000000, 0xFC0FFFFF⟩

/-- The opcode map, in the order of R62. -/
def opcodeTable : List TableRow :=
  [rowLdv, rowRdv, rowVxor, rowVdot, rowVmul, rowIdent, rowMmov, rowMwr, rowMrd, rowSwapr, rowXorr, rowInv]

/-- The row a command stands in. -/
def Instr.row : Instr → TableRow
  | .ldv _ _ _ => rowLdv
  | .rdv _ => rowRdv
  | .vxor _ _ _ => rowVxor
  | .vdot _ _ _ => rowVdot
  | .vmul _ _ _ => rowVmul
  | .ident _ _ => rowIdent
  | .mmov _ _ => rowMmov
  | .mwr _ _ _ => rowMwr
  | .mrd _ _ _ => rowMrd
  | .swapr _ _ _ => rowSwapr
  | .xorr _ _ _ => rowXorr
  | .inv _ _ => rowInv

/-! ### Decoding -/

/-- Command i, if every reserved bit of w is zero: w and mask = match for the row (30_encoding.md R64). -/
def checked (r : TableRow) (w : Word) (i : Instr) : Except Reject Instr :=
  if w &&& r.mask = r.pattern then .ok i else .error (.reservedBits w)

/-- The command a word is, or why it is none (30_encoding.md R62 to R67). Which register file a field names is
fixed by the opcode (R65). -/
def decode (w : Word) : Except Reject Instr :=
  match opField w with
  | 0x01#6 => checked rowLdv w (.ldv (dField w) (immField w) (lField w))
  | 0x02#6 => checked rowRdv w (.rdv (aField w))
  | 0x03#6 => checked rowVxor w (.vxor (dField w) (aField w) (bField w))
  | 0x04#6 => checked rowVdot w (.vdot (dField w) (aField w) (bField w))
  | 0x05#6 => checked rowVmul w (.vmul (dField w) (aField w) (bField w))
  | 0x08#6 => checked rowIdent w (.ident (dField w) (lField w))
  | 0x09#6 => checked rowMmov w (.mmov (dField w) (aField w))
  | 0x0A#6 => checked rowMwr w (.mwr (dField w) (iField w) (aField w))
  | 0x0B#6 => checked rowMrd w (.mrd (dField w) (aField w) (iField w))
  | 0x0C#6 => checked rowSwapr w (.swapr (dField w) (iField w) (jField w))
  | 0x0D#6 => checked rowXorr w (.xorr (dField w) (iField w) (jField w))
  | 0x0E#6 => checked rowInv w (.inv (dField w) (aField w))
  | op => .error (.unassignedOpcode op)

/-- A bus word from its four byte lanes, lane 0 first (20_memory.md R44: offset 4k+0 carries bits 7:0). -/
def wordOfBytes (b0 b1 b2 b3 : Byte) : Word := b3 ++ b2 ++ b1 ++ b0

/-- Byte lane k of a bus word (20_memory.md R44). -/
def laneOfWord (w : Word) (k : Fin 4) : Byte := w.extractLsb' (8 * k.val) 8

/-- Decode the first command of a byte sequence and give the rest: every command is one 32-bit word
(30_encoding.md R57), little-endian in its byte lanes (20_memory.md R44). -/
def decodeBytes : List Byte → Except Reject (Instr × List Byte)
  | b0 :: b1 :: b2 :: b3 :: rest => (decode (wordOfBytes b0 b1 b2 b3)).map fun i => (i, rest)
  | _ => .error .truncated

/-- What the decoder reads from a row of spec/opcode_table.json whose first nbits bits are w, the bits above being
zero; none where it refuses. A command has exactly 32 bits (30_encoding.md R57). -/
def decodeTableWord (nbits w : Nat) : Option Instr :=
  if nbits ≤ 32 then (decode (BitVec.ofNat 32 (w % 2 ^ nbits))).toOption else none

/-! ### Encoding (30_encoding.md R71) -/

/-- Format R: op << 26 | d << 23 | a << 20 | b << 17. -/
def formatR (op : Nat) (d a b : Fin 8) : Word :=
  BitVec.ofNat 32 op <<< 26 ||| BitVec.ofNat 32 d.val <<< 23 ||| BitVec.ofNat 32 a.val <<< 20
    ||| BitVec.ofNat 32 b.val <<< 17

/-- Format I: op << 26 | d << 23 | L << 16 | imm. -/
def formatI (op : Nat) (d : Fin 8) (len : Nat) (imm : Row) : Word :=
  BitVec.ofNat 32 op <<< 26 ||| BitVec.ofNat 32 d.val <<< 23 ||| BitVec.ofNat 32 len <<< 16 ||| imm.setWidth 32

/-- Format X: op << 26 | d << 23 | a << 20 | i << 4 | j. -/
def formatX (op : Nat) (d a : Fin 8) (i j : Nat) : Word :=
  BitVec.ofNat 32 op <<< 26 ||| BitVec.ofNat 32 d.val <<< 23 ||| BitVec.ofNat 32 a.val <<< 20
    ||| BitVec.ofNat 32 i <<< 4 ||| BitVec.ofNat 32 j

/-- The word of a command, every field not named for it zero (30_encoding.md R71). -/
def encode : Instr → Word
  | .ldv d imm len => formatI 0x01 d len imm
  | .rdv a => formatR 0x02 0 a 0
  | .vxor d a b => formatR 0x03 d a b
  | .vdot d a b => formatR 0x04 d a b
  | .vmul d a b => formatR 0x05 d a b
  | .ident d dim => formatI 0x08 d dim 0#16
  | .mmov d a => formatR 0x09 d a 0
  | .mwr d i a => formatX 0x0A d a i 0
  | .mrd d a i => formatX 0x0B d a i 0
  | .swapr d i j => formatX 0x0C d 0 i j
  | .xorr d i j => formatX 0x0D d 0 i j
  | .inv d a => formatR 0x0E d a 0

/-! ### Pseudo-instructions (30_encoding.md R69) -/

/-- VZERO vd, len: LDV vd, 0, len. -/
def vzero (d : VReg) (len : Nat) : Instr := .ldv d 0#16 len

/-- VBASIS vd, k, len: LDV vd, 1<<k, len; it exists for k < len only, and 1<<k must fit imm (R68). -/
def vbasis (d : VReg) (k len : Nat) : Option Instr :=
  if k < len ∧ k < 16 then some (.ldv d (1#16 <<< k) len) else none

end Sys2Proof
end

