-- ==== Sys2Proof/Config.lean ====
section
/-! DEFINITION. What is fixed for the machine (00_scope.md R5) and the values the spec leaves open: the window's
base address (20_memory.md R42) and the unspecified read values (70_reset_and_hazards.md R114, R119). -/

namespace Sys2Proof

/-- NMAX, the largest vector length and matrix dimension (00_scope.md R5). -/
def Config.nmax : Nat := 16

/-- BASE / 32. BASE is OPEN and a multiple of 32 (20_memory.md R42), so any natural number may stand here;
nothing can be proved about its value. DESIGN CHOICE (log entry 6): the parameter is held as this quotient. -/
opaque Config.baseIndex : Nat

/-- BASE, the host address of the window's first byte: a multiple of 32 (20_memory.md R42). -/
def Config.base : Nat := 32 * Config.baseIndex

/-- The value of the n-th unspecified read: a read of RESULT while BUSY = 1 (70_reset_and_hazards.md R119) or any
read while rst = 1 (R114). A free value: it has no body, so nothing can be proved about it (log entry 5). -/
opaque Config.freeRead : Nat → Word

end Sys2Proof
end

