-- ==== Sys2Proof/Machine/State.lean ====
section
/-! DEFINITION. The state of GF2LA (10_state.md R15), its values and cells (00_scope.md R10), the host's events
(20_memory.md R43, R49), the reasons a step can stop, and the state after reset (10_state.md R37). -/

namespace Sys2Proof.Machine

/-- A vector value Vec(len, bits): element i is bit i (00_scope.md R7, R10). -/
structure VecVal where
  len  : Nat
  bits : Row
  deriving DecidableEq, Repr

/-- The 16 rows of a matrix; entry (r, c) is bit c of row r (00_scope.md R10). -/
abbrev Rows := Vector Row 16

/-- A matrix value Mat(dim, row[0..15]) (00_scope.md R10). -/
structure MatVal where
  dim  : Nat
  rows : Rows
  deriving DecidableEq, Repr

/-- A vector cell: Empty (none) or a value (00_scope.md R10). Empty is the spec's own state, not a missing value. -/
abbrev VCell := Option VecVal

/-- A matrix cell: Empty (none) or a value (00_scope.md R10). -/
abbrev MCell := Option MatVal

/-- The error codes of 60_exceptions.md R99 that something raises; `ErrorCode.code` gives their numbers. -/
inductive ErrorCode where
  | dimMismatch
  | emptyOperand
  | illegalCmd
  | range
  | overrun
  deriving DecidableEq, Repr

/-- The eight registers of the window (10_state.md R24). -/
inductive WindowReg where
  | id
  | cmd
  | status
  | result
  | ctrl
  | errcmd
  | reserved18
  | reserved1C
  deriving DecidableEq, Repr

/-- One host access to the window: a byte offset from BASE (5 bits, 20_memory.md R41), a size in bytes (R43: only
4 is supported), and for a write the 32-bit data. -/
inductive Access where
  | read  (off : BitVec 5) (size : Nat)
  | write (off : BitVec 5) (size : Nat) (data : Word)
  deriving DecidableEq, Repr

/-- What can happen next (20_memory.md R49, R50). DESIGN CHOICE (log entry 2): the interleaving of host accesses
and completions is plain data in State. -/
inductive Event where
  /-- The host's next access arrives. -/
  | access (a : Access)
  /-- A clock edge with rst = 1; an access in that cycle has no effect (70_reset_and_hazards.md R114). -/
  | rst (during : Option Access)
  /-- The block's turn: it completes the pending command if there is one (60_exceptions.md R98). -/
  | blockTurn
  deriving DecidableEq, Repr

/-- The complete state of GF2LA (10_state.md R15: "Nothing else is state"), then the model's own fields for the
world outside the block. -/
structure State where
  /-- Vector registers v0 to v7 (R16). -/
  vr      : Vector VCell 8
  /-- Matrix registers m0 to m7 (R17). -/
  mr      : Vector MCell 8
  /-- STATUS.NI (R29). -/
  ni      : Bool
  /-- STATUS.ERR (R30). -/
  err     : BitVec 4
  /-- RESULT (R31). -/
  result  : Word
  /-- ERRCMD (R34). -/
  errcmd  : Word
  /-- The pending latch (R22): none, or the accepted command word. -/
  pending : Option Word
  /-- Not the spec's: the events still to come, the next one first (log entry 2). -/
  agenda  : List Event
  /-- Not the spec's: the answers given to host reads on rdata, the newest first (log entry 4). -/
  readLog : List Word
  /-- Not the spec's: how many unspecified read values have been given (log entry 5). -/
  draws   : Nat
  deriving DecidableEq, Repr

/-- Why the machine stops with a fault: never. A command error is recorded in STATUS and the machine goes on
(60_exceptions.md R101), and no error or result stops it or transfers control (R109); so there is no reason. -/
inductive Fault where
  deriving DecidableEq, Repr

/-- Why a step has no meaning. -/
inductive Refusal where
  /-- Raised by an arm of `exec` whose command has no meaning yet; safe. No arm does: every command has one. -/
  | notModelled (mnemonic : String)
  /-- Raised by `hostAccess` for an access that is not an aligned 32-bit one: 20_memory.md R43, "the spec gives it no
  meaning, and a model refuses it"; safe. -/
  | unsupportedAccess (a : Access)
  deriving DecidableEq, Repr

/-- The state after reset (10_state.md R37). The last three fields are the model's own (DESIGN CHOICE, log entries
2, 4 and 5). -/
def State.reset : State where
  vr      := Vector.replicate 8 none
  mr      := Vector.replicate 8 none
  ni      := false
  err     := 0#4
  result  := 0#32
  errcmd  := 0#32
  pending := none
  agenda  := []
  readLog := []
  draws   := 0

end Sys2Proof.Machine
end

