-- ==== Sys2Proof/Machine/Gf2.lean ====
section
/-! DEFINITION. Arithmetic over GF(2) on vector words and matrix rows (00_scope.md R8, R9, R12): parity, the
row-vector product, identity rows, row read, row write, row swap and row XOR. -/

namespace Sys2Proof.Machine

/-- A legal vector length or matrix dimension: 1 to NMAX (00_scope.md R6, R10). -/
abbrev legalSize (n : Nat) : Prop := 1 ≤ n ∧ n ≤ Config.nmax

/-- Vec(len, bits) with len in 1..16 and its unused high bits zero (00_scope.md R10). -/
abbrev VecVal.wf (x : VecVal) : Prop := legalSize x.len ∧ x.bits >>> x.len = 0#16

/-- Row r; a row number above 15 names no row and reads 0 (log entry 10). -/
def rowOf (R : Rows) (r : Nat) : Row := R[r]?.getD 0#16

/-- The rows with row r replaced by v; a row number above 15 names no row (log entry 10). -/
def setRow (R : Rows) (r : Nat) (v : Row) : Rows := R.setIfInBounds r v

/-- Mat(dim, row) with dim in 1..16 and every bit outside the dim by dim square zero (00_scope.md R10). -/
abbrev MatVal.wf (A : MatVal) : Prop :=
  legalSize A.dim ∧ ∀ r : Fin 16, if r.val < A.dim then rowOf A.rows r >>> A.dim = 0#16 else rowOf A.rows r = 0#16

/-- Entry (r, c) of a matrix: bit c of row r (00_scope.md R10). -/
def MatVal.entry (A : MatVal) (r c : Nat) : Bool := (rowOf A.rows r).getLsbD c

/-- parity(w): the XOR of all bits of w (00_scope.md R9). -/
def parity (w : Row) : Bool := (List.range 16).foldl (fun p i => Bool.xor p (w.getLsbD i)) false

/-- The row-vector product x times the n by n matrix with rows R: the XOR of the rows r < n with x[r] = 1
(00_scope.md R12, the loop of 40_vector.md R78). -/
def rowTimes (x : Row) (R : Rows) (n : Nat) : Row :=
  (List.range n).foldl (fun acc r => if x.getLsbD r then acc ^^^ rowOf R r else acc) 0#16

/-- row[r] = 1 << r for r < n, else 0 (41_matrix.md R81). -/
def identityRows (n : Nat) : Rows := Vector.ofFn fun r => if r.val < n then 1#16 <<< r.val else 0#16

/-- Swap rows i and j (41_matrix.md R85). -/
def swapRows (R : Rows) (i j : Nat) : Rows := setRow (setRow R i (rowOf R j)) j (rowOf R i)

/-- Row i becomes row i XOR row j (41_matrix.md R86). -/
def xorRow (R : Rows) (i j : Nat) : Rows := setRow R i (rowOf R i ^^^ rowOf R j)

/-- The product A times B: the matrix whose row r is row r of A times B (40_vector.md R79(d)). -/
def MatVal.mul (A B : MatVal) : MatVal :=
  ⟨A.dim, Vector.ofFn fun r => rowTimes (rowOf A.rows r.val) B.rows B.dim⟩

/-- The n by n identity matrix I_n (41_matrix.md R81). -/
def MatVal.identity (n : Nat) : MatVal := ⟨n, identityRows n⟩

end Sys2Proof.Machine
end

