-- ==== Sys2Proof/Machine/Ops.lean ====
section
/-! DEFINITION. The named operations on the state: the one home of every register's reads and writes (10_state.md
R19), recording a command error (60_exceptions.md R101, this hardware's exception entry), clearing it (R105, the
return), the pending latch (10_state.md R22), and reset (R37). -/

namespace Sys2Proof.Machine

/-! ### Register files -/

/-- vr[i] (00_scope.md R9). -/
def State.getV (s : State) (r : VReg) : VCell := s.vr.get r
/-- mr[i] (00_scope.md R9). -/
def State.getM (s : State) (r : MReg) : MCell := s.mr.get r
/-- vr[i] <- c (00_scope.md R9). -/
def State.setV (s : State) (r : VReg) (c : VCell) : State := { s with vr := s.vr.set r c }
/-- mr[i] <- c (00_scope.md R9). -/
def State.setM (s : State) (r : MReg) (c : MCell) : State := { s with mr := s.mr.set r c }
/-- RESULT <- w (10_state.md R31). -/
def State.setResult (s : State) (w : Word) : State := { s with result := w }
/-- NI <- b (10_state.md R29). -/
def State.setNi (s : State) (b : Bool) : State := { s with ni := b }

/-! ### The pending latch (10_state.md R22) -/

/-- pending <- w: a command is accepted (60_exceptions.md R97). -/
def State.latch (s : State) (w : Word) : State := { s with pending := some w }
/-- pending <- none: the command has completed (60_exceptions.md R98). -/
def State.retire (s : State) : State := { s with pending := none }

/-! ### Errors -/

/-- The number of an error code (60_exceptions.md R99). -/
def ErrorCode.code : ErrorCode → BitVec 4
  | .dimMismatch => 1#4
  | .emptyOperand => 2#4
  | .illegalCmd => 3#4
  | .range => 4#4
  | .overrun => 5#4

/-- ERR <- code; ERRCMD <- w, whatever they were. -/
def State.setError (s : State) (c : ErrorCode) (w : Word) : State := { s with err := c.code, errcmd := w }

/-- Record error c of word w: the first error since reset or ERRCLR is kept, a later one changes nothing
(60_exceptions.md R101; the same for OVERRUN, R97 and R103). This is the whole of taking an error: no register,
RESULT, NI or latch is written, and nothing is saved or transferred (R109). -/
def State.raiseError (s : State) (c : ErrorCode) (w : Word) : State :=
  if s.err = 0#4 then s.setError c w else s

/-- The return from an error: ERR <- 0 and ERRCMD <- 0 and nothing else (60_exceptions.md R105, 10_state.md R33). -/
def State.clearError (s : State) : State := { s with err := 0#4, errcmd := 0#32 }

/-! ### Reset -/

/-- The block's state becomes the reset state (10_state.md R37, 70_reset_and_hazards.md R114, R115); a pending
command is abandoned. What is outside the block (the model's own fields) stays. -/
def State.resetBlock (s : State) : State :=
  { State.reset with agenda := s.agenda, readLog := s.readLog, draws := s.draws }

/-! ### The world outside the block -/

/-- The events still to come. -/
def State.withAgenda (s : State) (es : List Event) : State := { s with agenda := es }

/-- A host read is answered with w on rdata (10_state.md R38). -/
def State.answer (s : State) (w : Word) : State := { s with readLog := w :: s.readLog }

/-- A host read is answered with an unspecified value (70_reset_and_hazards.md R114, R119): the next free value. -/
def State.answerFree (s : State) : State :=
  { s with readLog := Config.freeRead s.draws :: s.readLog, draws := s.draws + 1 }

/-! ### Completing a command -/

/-- A check of a command: `raise Error(c)` unless p holds (00_scope.md R9). -/
def require (p : Prop) [Decidable p] (c : ErrorCode) : Except ErrorCode Unit :=
  if p then .ok () else .error c

/-- How a command's rule ends: with all its writes, or with an error and none of them (60_exceptions.md R101: errors
are precise). The recorded word is the command's own; a word that decodes to i is `encode i` (log entry 8). -/
def finish (i : Instr) (s : State) (r : Except ErrorCode State) : Host.Outcome State Fault Refusal :=
  match r with
  | .ok t => .next t
  | .error c => .next (s.raiseError c (encode i))

end Sys2Proof.Machine
end

