-- ==== Sys2Proof/Machine/Flags.lean ====
section
/-! DEFINITION. STATUS and its fields (10_state.md R27 to R30). NI is the only result flag (R21) and only INV writes
it; ERR is written by `State.raiseError` and `State.clearError` (Ops.lean); BUSY is not stored. -/

namespace Sys2Proof.Machine

/-- STATUS.BUSY: 1 exactly when a command is pending (10_state.md R22, R28). -/
def State.busy (s : State) : Bool := s.pending.isSome

/-- What STATUS reads: (ERR << 4) | (NI << 1) | BUSY (10_state.md R27). -/
def State.status (s : State) : Word :=
  s.err.setWidth 32 <<< 4 ||| (BitVec.ofBool s.ni).setWidth 32 <<< 1 ||| (BitVec.ofBool s.busy).setWidth 32

/-- The outcome of an INV: the inverse and NI <- 0, or Empty and NI <- 1 when the source was singular
(42_inversion.md R94). -/
def State.setInverse (s : State) (d : MReg) (c : MCell) : State := (s.setM d c).setNi c.isNone

end Sys2Proof.Machine
end

