-- ==== Sys2Proof/Machine/Operands.lean ====
section
/-! DEFINITION. The operand forms of the commands (30_encoding.md R65, R66) and their checks (40_vector.md R73,
41_matrix.md R80): a vector or matrix register that is read, a length or dimension field, a row index, agreeing
sizes. Sources are read before any result is written (70_reset_and_hazards.md R122). -/

namespace Sys2Proof.Machine

/-- Read a vector operand: EMPTY_OPERAND if its cell is Empty (10_state.md R18). -/
def vecOperand (s : State) (r : VReg) : Except ErrorCode VecVal :=
  match s.getV r with
  | some x => .ok x
  | none => .error .emptyOperand

/-- Read a matrix operand: EMPTY_OPERAND if its cell is Empty (10_state.md R18). -/
def matOperand (s : State) (r : MReg) : Except ErrorCode MatVal :=
  match s.getM r with
  | some A => .ok A
  | none => .error .emptyOperand

/-- The field L must be 1 to 16, else RANGE (40_vector.md R73, 41_matrix.md R80). -/
def requireSize (n : Nat) : Except ErrorCode Unit := require (legalSize n) .range

/-- A row index must be less than the matrix's dim, else RANGE (41_matrix.md R80). -/
def requireRow (A : MatVal) (i : Nat) : Except ErrorCode Unit := require (i < A.dim) .range

/-- Lengths and dimensions must agree, else DIM_MISMATCH (40_vector.md R73, 41_matrix.md R80). -/
def requireSameSize (m n : Nat) : Except ErrorCode Unit := require (m = n) .dimMismatch

end Sys2Proof.Machine
end

