-- ==== Sys2Proof/Machine/Inversion.lean ====
section
/-! DEFINITION. INV (42_inversion.md): Gauss-Jordan over GF(2) as R89 to R93 write it, a pure function of the source
matrix (10_state.md R23), and the command. Every row operation is applied to W and to X (90_conflicts.md C3). -/

namespace Sys2Proof.Machine

/-- The inverter's working copy W and accumulator X, private to one INV (10_state.md R23). -/
structure GaussPair where
  W : Rows
  X : Rows
  deriving DecidableEq, Repr

/-- W is the matrix, X the identity (42_inversion.md R89). -/
def gaussStart (A : MatVal) : GaussPair := ⟨A.rows, identityRows A.dim⟩

/-- The smallest p with i < p ≤ n-1 and W[p][i] = 1, if any (42_inversion.md R91). -/
def pivotSearch (n : Nat) (W : Rows) (i : Nat) : Option Nat :=
  (List.range' (i + 1) (n - (i + 1))).find? fun p => (rowOf W p).getLsbD i

/-- Swap rows i and p of W and of X (42_inversion.md R90). -/
def gaussSwap (i : Nat) (g : GaussPair) (p : Nat) : GaussPair := ⟨swapRows g.W i p, swapRows g.X i p⟩

/-- If W[r][i] = 1, XOR pivot row i into row r of W and of X (42_inversion.md R92, R93). -/
def gaussClear (i : Nat) (g : GaussPair) (r : Nat) : GaussPair :=
  if (rowOf g.W r).getLsbD i then ⟨xorRow g.W r i, xorRow g.X r i⟩ else g

/-- Make W[i][i] = 1, by a swap with the row of `pivotSearch` where it is 0; none if there is no such row: the
matrix is singular (42_inversion.md R90). -/
def gaussPivot (n : Nat) (g : GaussPair) (i : Nat) : Option GaussPair :=
  if (rowOf g.W i).getLsbD i then some g else (pivotSearch n g.W i).map (gaussSwap i g)

/-- One pivot column of the forward pass: pivot, then clear the rows r = i+1..n-1 (42_inversion.md R90, R92). -/
def forwardColumn (n : Nat) (g : GaussPair) (i : Nat) : Option GaussPair :=
  (gaussPivot n g i).map fun h => (List.range' (i + 1) (n - (i + 1))).foldl (gaussClear i) h

/-- The forward pass over the columns 0..n-1; it stops at the first column with no pivot (42_inversion.md R90). -/
def forwardPass (n : Nat) (g : GaussPair) : Option GaussPair := (List.range n).foldlM (forwardColumn n) g

/-- One column of the backward pass: clear the rows r = 0..i-1 (42_inversion.md R93). -/
def backwardColumn (g : GaussPair) (i : Nat) : GaussPair := (List.range i).foldl (gaussClear i) g

/-- The backward pass over the columns n-1 down to 1 (42_inversion.md R93). -/
def backwardPass (n : Nat) (g : GaussPair) : GaussPair :=
  ((List.range' 1 (n - 1)).reverse).foldl backwardColumn g

/-- GaussJordan(A): some X when it returns (true, X), none when it returns (false, -) (42_inversion.md R89 to R93). -/
def gaussJordan (A : MatVal) : Option Rows :=
  (forwardPass A.dim (gaussStart A)).map fun g => (backwardPass A.dim g).X

/-- INV (42_inversion.md R88, R94): a singular source is no error (60_exceptions.md R104). -/
def execInv (d a : MReg) (s : State) : Host.Outcome State Fault Refusal :=
  finish (.inv d a) s do
    let A ← matOperand s a
    return s.setInverse d ((gaussJordan A).map fun X => ⟨A.dim, X⟩)

end Sys2Proof.Machine
end

