-- ==== Sys2Proof/Machine/Matrix.lean ====
section
/-! DEFINITION. The matrix commands IDENT, MMOV, MWR, MRD, SWAPR, XORR (41_matrix.md). Each follows its rule's
pseudocode line by line; the checks come in the order of 60_exceptions.md R100. -/

namespace Sys2Proof.Machine

/-- IDENT (41_matrix.md R81). -/
def execIdent (d : MReg) (dim : Nat) (s : State) : Host.Outcome State Fault Refusal :=
  finish (.ident d dim) s do
    requireSize dim
    return s.setM d (some (MatVal.identity dim))

/-- MMOV (41_matrix.md R82). -/
def execMmov (d a : MReg) (s : State) : Host.Outcome State Fault Refusal :=
  finish (.mmov d a) s do
    let A ← matOperand s a
    return s.setM d (some A)

/-- MWR (41_matrix.md R83): the vector is read before the matrix. -/
def execMwr (d : MReg) (i : Nat) (a : VReg) (s : State) : Host.Outcome State Fault Refusal :=
  finish (.mwr d i a) s do
    let x ← vecOperand s a
    let A ← matOperand s d
    requireRow A i
    requireSameSize x.len A.dim
    return s.setM d (some ⟨A.dim, setRow A.rows i x.bits⟩)

/-- MRD (41_matrix.md R84). -/
def execMrd (d : VReg) (a : MReg) (i : Nat) (s : State) : Host.Outcome State Fault Refusal :=
  finish (.mrd d a i) s do
    let A ← matOperand s a
    requireRow A i
    return s.setV d (some ⟨A.dim, rowOf A.rows i⟩)

/-- SWAPR (41_matrix.md R85). -/
def execSwapr (d : MReg) (i j : Nat) (s : State) : Host.Outcome State Fault Refusal :=
  finish (.swapr d i j) s do
    let A ← matOperand s d
    requireRow A i
    requireRow A j
    return s.setM d (some ⟨A.dim, swapRows A.rows i j⟩)

/-- XORR (41_matrix.md R86): i = j makes the row zero. -/
def execXorr (d : MReg) (i j : Nat) (s : State) : Host.Outcome State Fault Refusal :=
  finish (.xorr d i j) s do
    let A ← matOperand s d
    requireRow A i
    requireRow A j
    return s.setM d (some ⟨A.dim, xorRow A.rows i j⟩)

end Sys2Proof.Machine
end

