-- ==== Sys2Proof/Machine/Vector.lean ====
section
/-! DEFINITION. The vector commands LDV, RDV, VXOR, VDOT, VMUL (40_vector.md). Each follows its rule's pseudocode line
by line; the checks come in the order of 60_exceptions.md R100. -/

namespace Sys2Proof.Machine

/-- RESULT as RDV writes it: the bits in 15:0, the 5-bit length in 20:16, zeros above (40_vector.md R75). -/
def resultWord (x : VecVal) : Word := (BitVec.ofNat 5 x.len).setWidth 32 <<< 16 ||| x.bits.setWidth 32

/-- LDV (40_vector.md R74). -/
def execLdv (d : VReg) (imm : Row) (len : Nat) (s : State) : Host.Outcome State Fault Refusal :=
  finish (.ldv d imm len) s do
    requireSize len
    require (imm >>> len = 0#16) .dimMismatch
    return s.setV d (some ⟨len, imm⟩)

/-- RDV (40_vector.md R75). -/
def execRdv (a : VReg) (s : State) : Host.Outcome State Fault Refusal :=
  finish (.rdv a) s do
    let x ← vecOperand s a
    return s.setResult (resultWord x)

/-- VXOR (40_vector.md R76). -/
def execVxor (d a b : VReg) (s : State) : Host.Outcome State Fault Refusal :=
  finish (.vxor d a b) s do
    let x ← vecOperand s a
    let y ← vecOperand s b
    requireSameSize x.len y.len
    return s.setV d (some ⟨x.len, x.bits ^^^ y.bits⟩)

/-- VDOT (40_vector.md R77): the result has length 1. -/
def execVdot (d a b : VReg) (s : State) : Host.Outcome State Fault Refusal :=
  finish (.vdot d a b) s do
    let x ← vecOperand s a
    let y ← vecOperand s b
    requireSameSize x.len y.len
    return s.setV d (some ⟨1, (BitVec.ofBool (parity (x.bits &&& y.bits))).setWidth 16⟩)

/-- VMUL (40_vector.md R78). -/
def execVmul (d a : VReg) (b : MReg) (s : State) : Host.Outcome State Fault Refusal :=
  finish (.vmul d a b) s do
    let x ← vecOperand s a
    let A ← matOperand s b
    requireSameSize x.len A.dim
    return s.setV d (some ⟨A.dim, rowTimes x.bits A.rows A.dim⟩)

end Sys2Proof.Machine
end

