-- ==== Sys2Proof/Machine/Dispatch.lean ====
section
/-! DEFINITION. One arm per command, each one direct call of its meaning (60_exceptions.md R98: "perform the command's
rule"). -/

namespace Sys2Proof.Machine

def exec (i : Instr) (s : State) : Host.Outcome State Fault Refusal :=
  match i with
  | .ldv d imm len => Sys2Proof.Machine.execLdv d imm len s
  | .rdv a => Sys2Proof.Machine.execRdv a s
  | .vxor d a b => Sys2Proof.Machine.execVxor d a b s
  | .vdot d a b => Sys2Proof.Machine.execVdot d a b s
  | .vmul d a b => Sys2Proof.Machine.execVmul d a b s
  | .ident d dim => Sys2Proof.Machine.execIdent d dim s
  | .mmov d a => Sys2Proof.Machine.execMmov d a s
  | .mwr d row a => Sys2Proof.Machine.execMwr d row a s
  | .mrd d a row => Sys2Proof.Machine.execMrd d a row s
  | .swapr d row row2 => Sys2Proof.Machine.execSwapr d row row2 s
  | .xorr d row row2 => Sys2Proof.Machine.execXorr d row row2 s
  | .inv d a => Sys2Proof.Machine.execInv d a s

end Sys2Proof.Machine
end

