-- ==== Sys2Proof/Machine/Block.lean ====
section
/-! DEFINITION. The block's step (60_exceptions.md R98): decode the pending word, perform the command's rule or raise
ILLEGAL_CMD, and free the latch, as one transition. -/

namespace Sys2Proof.Machine

/-- pending <- none after the command, also after an error (60_exceptions.md R98). -/
def retireOutcome : Host.Outcome State Fault Refusal → Host.Outcome State Fault Refusal
  | .next s => .next s.retire
  | .fault f => .fault f
  | .refused r => .refused r

/-- Execute the command word w (60_exceptions.md R98). -/
def executeWord (w : Word) (s : State) : Host.Outcome State Fault Refusal :=
  match decode w with
  | .ok i => retireOutcome (exec i s)
  | .error _ => .next (s.raiseError .illegalCmd w).retire

/-- The block's turn: complete the pending command; with none pending the block is idle and its state survives
unchanged (60_exceptions.md R98, R112). -/
def blockStep (s : State) : Host.Outcome State Fault Refusal :=
  match s.pending with
  | some w => executeWord w s
  | none => .next s

/-- s with the word of nbits bits w in the pending latch and the block's turn next, so that the next step executes
exactly it; the bits above nbits are zero. Commands are not fetched (20_memory.md R54): this stands for an accepted CMD
write (log entry 2). -/
def offerTableWord (s : State) (nbits w : Nat) : State :=
  (s.latch (BitVec.ofNat 32 (w % 2 ^ nbits))).withAgenda (.blockTurn :: s.agenda)

end Sys2Proof.Machine
end

