-- ==== Sys2Proof/Machine/Window.lean ====
section
/-! DEFINITION. The host's side: the register window (10_state.md R24 to R36), accesses and their support
(20_memory.md R43), command acceptance (60_exceptions.md R97), the CTRL register, the rst port (70_reset_and_hazards.md
R114), the window's place in the host's address space (20_memory.md R42), and the ports (10_state.md R38). -/

namespace Sys2Proof.Machine

/-! ### The register map -/

/-- ID reads 0x47463210 at all times (10_state.md R25). -/
def idValue : Word := 0x47463210#32

/-- The register at a byte offset: the block decodes offset[4:2] (20_memory.md R42, 10_state.md R24). -/
def windowReg (off : BitVec 5) : WindowReg :=
  match off.extractLsb' 2 3 with
  | 0#3 => .id
  | 1#3 => .cmd
  | 2#3 => .status
  | 3#3 => .result
  | 4#3 => .ctrl
  | 5#3 => .errcmd
  | 6#3 => .reserved18
  | _ => .reserved1C

/-- What a register reads; CMD, CTRL and the reserved offsets read 0 (10_state.md R24, R26, R32, R35, R36). For RESULT
this is its value when BUSY = 0; see `hostRead`. -/
def windowValue (s : State) : WindowReg → Word
  | .id => idValue
  | .cmd => 0#32
  | .status => s.status
  | .result => s.result
  | .ctrl => 0#32
  | .errcmd => s.errcmd
  | .reserved18 => 0#32
  | .reserved1C => 0#32

/-- A host read: no side effect on the block (20_memory.md R47). RESULT read while BUSY = 1 gives an unspecified value
(70_reset_and_hazards.md R119). -/
def hostRead (r : WindowReg) (s : State) : State :=
  if r = .result ∧ s.busy then s.answerFree else s.answer (windowValue s r)

/-- A write of w to CMD: accepted, dropped as OVERRUN, or discarded; w is not decoded (60_exceptions.md R97). -/
def offerCommand (w : Word) (s : State) : State :=
  match s.pending with
  | some _ => s.raiseError .overrun w
  | none => if s.err = 0#4 then s.latch w else s

/-- A write of w to CTRL: SRST resets the block, ERRCLR alone clears the error, other bits are ignored (10_state.md
R32, R33). -/
def writeCtrl (w : Word) (s : State) : State :=
  if w.getLsbD 0 then s.resetBlock else if w.getLsbD 1 then s.clearError else s

/-- A host write: only CMD and CTRL have an effect (10_state.md R35, R36, 20_memory.md R47). -/
def hostWrite (r : WindowReg) (w : Word) (s : State) : State :=
  match r with
  | .cmd => offerCommand w s
  | .ctrl => writeCtrl w s
  | .id => s
  | .status => s
  | .result => s
  | .errcmd => s
  | .reserved18 => s
  | .reserved1C => s

/-! ### Accesses -/

/-- The one supported access: 32 bits at an offset that is a multiple of 4 (20_memory.md R43). -/
def Access.supported : Access → Bool
  | .read off size => size == 4 && off.extractLsb' 0 2 == 0#2
  | .write off size _ => size == 4 && off.extractLsb' 0 2 == 0#2

/-- A host access; one that is not an aligned 32-bit access has no meaning and is refused (20_memory.md R43). -/
def hostAccess (a : Access) (s : State) : Host.Outcome State Fault Refusal :=
  if a.supported then
    match a with
    | .read off _ => .next (hostRead (windowReg off) s)
    | .write off _ w => .next (hostWrite (windowReg off) w s)
  else .refused (.unsupportedAccess a)

/-- A clock edge with rst = 1: the block is reset; an access in that cycle has no effect and a read is answered with an
unspecified value (70_reset_and_hazards.md R114). DESIGN CHOICE (log entry 7): this holds of an access of any size and
alignment, none is refused there. -/
def hardwareReset (during : Option Access) (s : State) : State :=
  match during with
  | some (.read _ _) => s.resetBlock.answerFree
  | some (.write _ _ _) => s.resetBlock
  | none => s.resetBlock

/-! ### The host's address space (20_memory.md R42) -/

/-- The byte offset of a host address that lies in the window BASE to BASE+0x1F; none elsewhere: what the host sees
there is the platform's (20_memory.md R42). That the first byte of an access decides is log entry 6. -/
def windowOffset (addr : Nat) : Option (BitVec 5) :=
  if Config.base ≤ addr ∧ addr < Config.base + 32 then some (BitVec.ofNat 5 (addr - Config.base)) else none

/-- MemRead(addr, n) as an event at the block (00_scope.md R9, 20_memory.md R43). -/
def memRead (addr n : Nat) : Option Event := (windowOffset addr).map fun off => .access (.read off n)

/-- MemWrite(addr, n, w) as an event at the block (00_scope.md R9, 20_memory.md R43). -/
def memWrite (addr n : Nat) (w : Word) : Option Event := (windowOffset addr).map fun off => .access (.write off n w)

/-! ### Ports (10_state.md R38) -/

/-- The input ports at one clock edge (10_state.md R38); addr is the word offset, byte offset[4:2]. -/
structure PortCycle where
  rst   : Bool
  sel   : Bool
  we    : Bool
  addr  : BitVec 3
  wdata : Word
  deriving DecidableEq, Repr

/-- The access of a cycle, if sel = 1; we selects a write (10_state.md R38). Every port access is an aligned word. -/
def PortCycle.access (p : PortCycle) : Option Access :=
  if p.sel then some (if p.we then .write (p.addr ++ 0#2) 4 p.wdata else .read (p.addr ++ 0#2) 4) else none

/-- The events of one clock cycle, in the order they take effect: the completion first, if it falls in this cycle, then
the host's access or the reset (60_exceptions.md R108, 70_reset_and_hazards.md R114). -/
def PortCycle.events (p : PortCycle) (completes : Bool) : List Event :=
  (if completes then [.blockTurn] else []) ++
    (if p.rst then [.rst p.access] else p.access.toList.map .access)

end Sys2Proof.Machine
end

