-- ==== Sys2Proof/Machine/Step.lean ====
section
/-! DEFINITION. One step of the machine: the next event of the agenda, or, when the agenda is used up, the block's turn
(20_memory.md R49, R50, 70_reset_and_hazards.md R124). -/

namespace Sys2Proof.Machine

/-- One step. The agenda says whose turn it is (log entry 2); when it is empty it is the block's (log entry 3). -/
def step (s : State) : Host.Outcome State Fault Refusal :=
  match s.agenda with
  | [] => blockStep s
  | .blockTurn :: es => blockStep (s.withAgenda es)
  | .access a :: es => hostAccess a (s.withAgenda es)
  | .rst during :: es => .next (hardwareReset during (s.withAgenda es))

/-- s with an instruction word placed so that the very next step executes it. -/
def State.withFetchWord (s : State) (nbits w : Nat) : State := offerTableWord s nbits w

end Sys2Proof.Machine
end

