-- ==== Sys2Proof/Machine/HostProgram.lean ====
section
/-! DEFINITION. The host operations of 30_encoding.md R70 as the window accesses the block sees, under every latency: a
latency k is the number of STATUS polls that find BUSY = 1 before the block's turn comes (log entry 13). -/

namespace Sys2Proof.Machine

/-- The byte offset of a window register (10_state.md R24). -/
def regOffset : WindowReg → BitVec 5
  | .id => 0x00#5
  | .cmd => 0x04#5
  | .status => 0x08#5
  | .result => 0x0C#5
  | .ctrl => 0x10#5
  | .errcmd => 0x14#5
  | .reserved18 => 0x18#5
  | .reserved1C => 0x1C#5

/-- MemRead(BASE + offset, 4) of a window register. -/
def readEvent (r : WindowReg) : Event := .access (.read (regOffset r) 4)

/-- MemWrite(BASE + offset, 4, w) of a window register. -/
def writeEvent (r : WindowReg) (w : Word) : Event := .access (.write (regOffset r) 4 w)

/-- WAIT: read STATUS until BUSY is 0 (R70): k polls before the block's turn and one after it. -/
def waitEvents (k : Nat) : List Event := List.replicate k (readEvent .status) ++ [.blockTurn, readEvent .status]

/-- A host operation (R70). Branches are host control flow on values it read and are no access. -/
inductive HostOp where
  /-- EXEC command, as its word. -/
  | exec (w : Word)
  /-- WAIT. -/
  | wait
  /-- t <- STATUS, t <- RESULT, t <- ERRCMD (any register can be read). -/
  | get (r : WindowReg)
  /-- CTRL <- v. -/
  | ctrl (v : Word)
  deriving DecidableEq, Repr

/-- The events of one host operation when the command it waits for has latency k (R70). EXEC is WAIT, the CMD write,
WAIT; its first WAIT finds the block idle when the host has waited for every earlier command. -/
def HostOp.events (k : Nat) : HostOp → List Event
  | .exec w => readEvent .status :: writeEvent .cmd w :: waitEvents k
  | .wait => waitEvents k
  | .get r => [readEvent r]
  | .ctrl v => [writeEvent .ctrl v]

/-- The events of a host program (95_test_vectors.md section 3), every command with latency k. -/
def hostProgram (k : Nat) (ops : List HostOp) : List Event := ops.flatMap (HostOp.events k)

end Sys2Proof.Machine
end

