-- ==== Sys2Proof/Safety.lean ====
section
/-! DEFINITION. The words claims are written in: the invariant of the state (00_scope.md R10, 10_state.md R30, R31, R34),
what each command reads and writes (10_state.md R19), when each error applies (60_exceptions.md R99), error outcomes
(R101), what stays outside the block, and the end of a run (70_reset_and_hazards.md R126). -/

namespace Sys2Proof.Machine

/-- What holds of every state a run reaches: cells hold only legal values (00_scope.md R10), ERR is 0 to 5 (10_state.md
R30), ERRCMD is 0 whenever ERR is (R34), and RESULT is 0 or what RDV writes for a legal vector (R31). -/
structure State.Inv (s : State) : Prop where
  vectors  : ∀ r x, s.getV r = some x → x.wf
  matrices : ∀ r A, s.getM r = some A → A.wf
  err_le   : s.err ≤ 5#4
  errcmd   : s.err = 0#4 → s.errcmd = 0#32
  result   : s.result = 0#32 ∨ ∃ x : VecVal, x.wf ∧ s.result = resultWord x

/-- The vector registers a command reads (10_state.md R19). -/
def readsVec : Instr → List VReg
  | .ldv _ _ _ => []
  | .rdv a => [a]
  | .vxor _ a b => [a, b]
  | .vdot _ a b => [a, b]
  | .vmul _ a _ => [a]
  | .ident _ _ => []
  | .mmov _ _ => []
  | .mwr _ _ a => [a]
  | .mrd _ _ _ => []
  | .swapr _ _ _ => []
  | .xorr _ _ _ => []
  | .inv _ _ => []

/-- The matrix registers a command reads (10_state.md R19). -/
def readsMat : Instr → List MReg
  | .ldv _ _ _ => []
  | .rdv _ => []
  | .vxor _ _ _ => []
  | .vdot _ _ _ => []
  | .vmul _ _ b => [b]
  | .ident _ _ => []
  | .mmov _ a => [a]
  | .mwr d _ _ => [d]
  | .mrd _ a _ => [a]
  | .swapr d _ _ => [d]
  | .xorr d _ _ => [d]
  | .inv _ a => [a]

/-- The vector register a command writes (10_state.md R19). -/
def writesVec : Instr → Option VReg
  | .ldv d _ _ => some d
  | .rdv _ => none
  | .vxor d _ _ => some d
  | .vdot d _ _ => some d
  | .vmul d _ _ => some d
  | .ident _ _ => none
  | .mmov _ _ => none
  | .mwr _ _ _ => none
  | .mrd d _ _ => some d
  | .swapr _ _ _ => none
  | .xorr _ _ _ => none
  | .inv _ _ => none

/-- The matrix register a command writes (10_state.md R19). -/
def writesMat : Instr → Option MReg
  | .ldv _ _ _ => none
  | .rdv _ => none
  | .vxor _ _ _ => none
  | .vdot _ _ _ => none
  | .vmul _ _ _ => none
  | .ident d _ => some d
  | .mmov d _ => some d
  | .mwr d _ _ => some d
  | .mrd _ _ _ => none
  | .swapr d _ _ => some d
  | .xorr d _ _ => some d
  | .inv d _ => some d

/-- EMPTY_OPERAND applies: a register the command reads is Empty (60_exceptions.md R99, code 2). -/
def emptyApplies (i : Instr) (s : State) : Prop :=
  (∃ r ∈ readsVec i, s.getV r = none) ∨ (∃ r ∈ readsMat i, s.getM r = none)

/-- RANGE applies: L not in 1..16, or a row index not below the dim of the matrix (60_exceptions.md R99, code 4). -/
def rangeApplies (i : Instr) (s : State) : Prop :=
  match i with
  | .ldv _ _ len => len = 0 ∨ 16 < len
  | .ident _ dim => dim = 0 ∨ 16 < dim
  | .mwr d row _ => ∃ A, s.getM d = some A ∧ A.dim ≤ row
  | .mrd _ a row => ∃ A, s.getM a = some A ∧ A.dim ≤ row
  | .swapr d i j => ∃ A, s.getM d = some A ∧ (A.dim ≤ i ∨ A.dim ≤ j)
  | .xorr d i j => ∃ A, s.getM d = some A ∧ (A.dim ≤ i ∨ A.dim ≤ j)
  | .rdv _ => False
  | .vxor _ _ _ => False
  | .vdot _ _ _ => False
  | .vmul _ _ _ => False
  | .mmov _ _ => False
  | .inv _ _ => False

/-- DIM_MISMATCH applies: LDV's imm is at least 2^len, or two operands' sizes differ (60_exceptions.md R99, code 1). -/
def dimApplies (i : Instr) (s : State) : Prop :=
  match i with
  | .ldv _ imm len => 2 ^ len ≤ imm.toNat
  | .vxor _ a b => ∃ x y, s.getV a = some x ∧ s.getV b = some y ∧ x.len ≠ y.len
  | .vdot _ a b => ∃ x y, s.getV a = some x ∧ s.getV b = some y ∧ x.len ≠ y.len
  | .vmul _ a b => ∃ x A, s.getV a = some x ∧ s.getM b = some A ∧ x.len ≠ A.dim
  | .mwr d _ a => ∃ x A, s.getV a = some x ∧ s.getM d = some A ∧ x.len ≠ A.dim
  | .rdv _ => False
  | .ident _ _ => False
  | .mmov _ _ => False
  | .mrd _ _ _ => False
  | .swapr _ _ _ => False
  | .xorr _ _ _ => False
  | .inv _ _ => False

/-- s after error c of word w: recorded if ERR was 0, else nothing changes (60_exceptions.md R101). -/
def afterError (s : State) (c : ErrorCode) (w : Word) : State :=
  if s.err = 0#4 then { s with err := c.code, errcmd := w } else s

/-- The command ends in error c: the machine goes on in a state that differs in ERR and ERRCMD at most. -/
def RaisesError (i : Instr) (s : State) (c : ErrorCode) : Prop := exec i s = .next (afterError s c (encode i))

/-- s and t hold the same block state (10_state.md R15); the model's own fields may differ. -/
structure SameBlock (s t : State) : Prop where
  vr      : t.vr = s.vr
  mr      : t.mr = s.mr
  ni      : t.ni = s.ni
  err     : t.err = s.err
  result  : t.result = s.result
  errcmd  : t.errcmd = s.errcmd
  pending : t.pending = s.pending

/-- s and t agree outside the block: agenda, answers given, values drawn. -/
structure SameWorld (s t : State) : Prop where
  agenda  : t.agenda = s.agenda
  readLog : t.readLog = s.readLog
  draws   : t.draws = s.draws

/-- The block holds the reset state (10_state.md R37). -/
def IsReset (s : State) : Prop := SameBlock State.reset s

/-- The event is no access, or a supported one (20_memory.md R43). -/
def Event.supported : Event → Bool
  | .access a => a.supported
  | .rst _ => true
  | .blockTurn => true

/-- The event can neither reset the block nor clear its error: no rst, and no write to CTRL. -/
def Event.keepsError : Event → Bool
  | .rst _ => false
  | .blockTurn => true
  | .access (.read _ _) => true
  | .access (.write off _ _) => windowReg off != .ctrl

/-- The access is narrower or wider than 32 bits, or its offset is no multiple of 4 (20_memory.md R43). -/
def Access.Misfit : Access → Prop
  | .read off size => size ≠ 4 ∨ off.toNat % 4 ≠ 0
  | .write off size _ => size ≠ 4 ∨ off.toNat % 4 ≠ 0

/-- The run has ended: no event is left and no command is pending, so that a STATUS read would find BUSY = 0
(70_reset_and_hazards.md R126). DESIGN CHOICE (log entry 18): R126 has the host make that read, 92_eei_decisions.md D44
gives it as a condition; the condition alone is taken, and no read need have been made. -/
def RunEnded (s : State) : Prop := s.agenda = [] ∧ s.pending = none

/-- What a run is observed by (70_reset_and_hazards.md R126): the register cells, as RDV and MRD read them, STATUS, RESULT
and ERRCMD. -/
structure Observation where
  vr     : Vector VCell 8
  mr     : Vector MCell 8
  status : Word
  result : Word
  errcmd : Word
  deriving DecidableEq, Repr

/-- The observation of a run that has ended, by the condition of `RunEnded` (DESIGN CHOICE, log entry 18); none while it
has not (70_reset_and_hazards.md R126). -/
def observe (s : State) : Option Observation :=
  if s.agenda = [] ∧ s.pending = none then some ⟨s.vr, s.mr, s.status, s.result, s.errcmd⟩ else none

/-- It is the block's turn: the agenda says so, or it is empty (DESIGN CHOICE, log entry 3). -/
def BlockTurnNext (s : State) : Prop := s.agenda = [] ∨ ∃ es, s.agenda = .blockTurn :: es

/-- s with the next event taken off the agenda. -/
def popEvent (s : State) : State := { s with agenda := s.agenda.tail }

end Sys2Proof.Machine
end

