-- ==== Sys2Proof/Certificates/Slice0/Obligations.lean ====
section
/-! DEFINITION. The statements for the provers. Each docstring names the rule of the spec it formalises. -/

open Sys2Proof Sys2Proof.Machine

/-! ### Encoding and decoding -/

/-- Decoding undoes encoding: every well-formed command comes back with every operand (30_encoding.md R62, R66, R71). -/
def Obligations.DecodeOfEncodeIsTheCommand : Prop :=
  ∀ i : Instr, i.wellFormed = true → decode (encode i) = .ok i

/-- Encoding undoes decoding: a word that decodes is the word of its command, which is well-formed, so no bit of a word
is dropped (30_encoding.md R64, R71). -/
def Obligations.EncodeOfDecodedIsTheWord : Prop :=
  ∀ (w : Word) (i : Instr), decode w = .ok i → i.wellFormed = true ∧ encode i = w

/-- 30_encoding.md R67: every word is exactly one of the twelve commands (when (w and mask) = match for its row; the rows
are disjoint), or illegal (no row is met). -/
def Obligations.EveryWordIsOneCommandOrIllegal : Prop :=
  opcodeTable.length = 12 ∧
  ∀ w : Word,
    (∃ i, decode w = .ok i ∧ i.row ∈ opcodeTable ∧ w &&& i.row.mask = i.row.pattern ∧
      ∀ r ∈ opcodeTable, w &&& r.mask = r.pattern → r = i.row) ∨
    ((∃ e, decode w = .error e) ∧ ∀ r ∈ opcodeTable, w &&& r.mask ≠ r.pattern)

/-- One word of each command, written out from the spec's encoding and its examples (30_encoding.md R62, R71; the words
are those of 40_vector.md, 41_matrix.md, 42_inversion.md and 95_test_vectors.md), decodes to that command. -/
def Obligations.SampleWordsDecode : Prop :=
  decode 0x04830005#32 = .ok (.ldv 1 5 3) ∧ decode 0x08100000#32 = .ok (.rdv 1) ∧
  decode 0x0D020000#32 = .ok (.vxor 2 0 1) ∧ decode 0x11020000#32 = .ok (.vdot 2 0 1) ∧
  decode 0x15020000#32 = .ok (.vmul 2 0 1) ∧ decode 0x20030000#32 = .ok (.ident 0 3) ∧
  decode 0x24800000#32 = .ok (.mmov 1 0) ∧ decode 0x28300020#32 = .ok (.mwr 0 2 3) ∧
  decode 0x2E000020#32 = .ok (.mrd 4 0 2) ∧ decode 0x30000002#32 = .ok (.swapr 0 0 2) ∧
  decode 0x34000001#32 = .ok (.xorr 0 0 1) ∧ decode 0x38800000#32 = .ok (.inv 1 0)

/-- 30_encoding.md R63: a word with an unassigned or reserved opcode raises ILLEGAL_CMD when it executes, and has no
other effect. -/
def Obligations.UnassignedOpcodeRaisesIllegalCmd : Prop :=
  ∀ (s : State) (w : Word), BlockTurnNext s → s.pending = some w →
    (opField w = 0x00#6 ∨ opField w = 0x06#6 ∨ opField w = 0x07#6 ∨ opField w = 0x0F#6 ∨ 0x10 ≤ (opField w).toNat) →
    step s = .next { afterError (popEvent s) .illegalCmd w with pending := none }

/-- 30_encoding.md R64: a word whose opcode is assigned but whose reserved bits are not all zero raises ILLEGAL_CMD, and
a word with an assigned opcode is a command only when (w and mask) = match for its row. -/
def Obligations.NonzeroReservedBitRaisesIllegalCmd : Prop :=
  ∀ (s : State) (w : Word) (r : TableRow), r ∈ opcodeTable → opField w = r.op →
    ((∃ i, decode w = .ok i) ↔ w &&& r.mask = r.pattern) ∧
    (BlockTurnNext s → s.pending = some w → w &&& r.mask ≠ r.pattern →
      step s = .next { afterError (popEvent s) .illegalCmd w with pending := none })

/-! ### The step -/

/-- When the pending word decodes to a command and it is the block's turn, the step is `exec` of that command, with the
latch freed after it (60_exceptions.md R98). -/
def Obligations.StepRunsDecodedCommand : Prop :=
  ∀ (s : State) (w : Word) (i : Instr), BlockTurnNext s → s.pending = some w → decode w = .ok i →
    step s = retireOutcome (exec i (popEvent s))

/-- The block's step, when a word is pending, performs the command's rule or raises ILLEGAL_CMD, and pending becomes none
in either case, also after an error (60_exceptions.md R98). That a turn with nothing pending is a step that changes nothing
is the model's choice (DESIGN CHOICE, log entry 3): R98 enables no step there, and the idle state survives (R112). -/
def Obligations.BlockStepCompletesPendingCommand : Prop :=
  ∀ s : State, BlockTurnNext s →
    (s.pending = none → step s = .next (popEvent s)) ∧
    (∀ w i, s.pending = some w → decode w = .ok i →
      ∃ u, exec i (popEvent s) = .next u ∧ step s = .next { u with pending := none }) ∧
    (∀ w e, s.pending = some w → decode w = .error e →
      step s = .next { afterError (popEvent s) .illegalCmd w with pending := none })

/-- A host access that is not 4 bytes wide or not aligned is refused, by name, in every state (20_memory.md R43: "a model
refuses it"); and the machine stops for this reason only: it never stops on a command or on a supported access. That an
rst cycle carrying a narrow or misaligned access is not refused (log entry 7) and that an idle turn answers a next state
(log entry 3) are the model's choices (DESIGN CHOICE). -/
def Obligations.StepStopsOnlyOnUnsupportedAccess : Prop :=
  ∀ s : State,
    (∀ a es, s.agenda = .access a :: es → a.Misfit → step s = .refused (.unsupportedAccess a)) ∧
    ((¬ ∃ t, step s = .next t) ↔ ∃ a es, s.agenda = .access a :: es ∧ a.Misfit)

/-! ### Errors -/

/-- 10_state.md R18: a command that reads an Empty register raises EMPTY_OPERAND and writes nothing else. -/
def Obligations.EmptyOperandIsNeverRead : Prop :=
  ∀ (i : Instr) (s : State), emptyApplies i s → RaisesError i s .emptyOperand

/-- 60_exceptions.md R100: of several errors that apply to one command the first of ILLEGAL_CMD, EMPTY_OPERAND, RANGE,
DIM_MISMATCH is the one reported, with the command word; a command none applies to completes with none. -/
def Obligations.ErrorPriority : Prop :=
  ∀ (s : State) (w : Word), BlockTurnNext s → s.pending = some w →
    ((∃ e, decode w = .error e) → step s = .next { afterError (popEvent s) .illegalCmd w with pending := none }) ∧
    ∀ i, decode w = .ok i →
      (emptyApplies i s → step s = .next { afterError (popEvent s) .emptyOperand w with pending := none }) ∧
      (¬ emptyApplies i s → rangeApplies i s →
        step s = .next { afterError (popEvent s) .range w with pending := none }) ∧
      (¬ emptyApplies i s → ¬ rangeApplies i s → dimApplies i s →
        step s = .next { afterError (popEvent s) .dimMismatch w with pending := none }) ∧
      (¬ emptyApplies i s → ¬ rangeApplies i s → ¬ dimApplies i s →
        ∃ t, step s = .next t ∧ t.err = s.err ∧ t.errcmd = s.errcmd ∧ t.pending = none)

/-- 60_exceptions.md R101: a command either completes, with ERR and ERRCMD as they were, or raises an error with none of
its writes, recorded with its number and word only if ERR was 0. -/
def Obligations.ErrorsArePrecise : Prop :=
  ∀ (i : Instr) (s : State), ∃ t, exec i s = .next t ∧
    ((¬ emptyApplies i s ∧ ¬ rangeApplies i s ∧ ¬ dimApplies i s ∧ t.err = s.err ∧ t.errcmd = s.errcmd) ∨
     ((emptyApplies i s ∨ rangeApplies i s ∨ dimApplies i s) ∧
      ((s.err ≠ 0#4 ∧ t = s) ∨
       (s.err = 0#4 ∧ ∃ c, (c = 1#4 ∨ c = 2#4 ∨ c = 4#4) ∧ t = { s with err := c, errcmd := encode i }))))

/-- When a step sets ERR from 0, ERRCMD becomes the word that raised the error: the pending word of the block's step, or
the dropped word of a CMD write while BUSY = 1, the only source of code 5 (10_state.md R34, 60_exceptions.md R99). -/
def Obligations.ErrcmdHoldsTheOffendingWord : Prop :=
  ∀ (s t : State), step s = .next t → s.err = 0#4 → t.err ≠ 0#4 →
    (BlockTurnNext s ∧ s.pending = some t.errcmd ∧ (t.err = 1#4 ∨ t.err = 2#4 ∨ t.err = 3#4 ∨ t.err = 4#4)) ∨
    (s.pending ≠ none ∧ t.err = 5#4 ∧
      ∃ off es, s.agenda = .access (.write off 4 t.errcmd) :: es ∧ windowReg off = .cmd)

/-- ERR is sticky: only rst and a CTRL write change a nonzero ERR or its ERRCMD (10_state.md R30, R34). -/
def Obligations.ErrIsStickyUntilCleared : Prop :=
  ∀ (s t : State), step s = .next t → s.err ≠ 0#4 → (∀ e ∈ s.agenda.head?, e.keepsError = true) →
    t.err = s.err ∧ t.errcmd = s.errcmd

/-- 60_exceptions.md R102: while ERR is not 0 and nothing is pending, no run of host accesses changes a register, NI,
RESULT, ERR or ERRCMD, and no command is accepted, until the host writes CTRL or rst is asserted. -/
def Obligations.CommandsAfterAnErrorAreDiscarded : Prop :=
  ∀ (k : Nat) (s t : State), s.err ≠ 0#4 → s.pending = none → (∀ e ∈ s.agenda, e.keepsError = true) →
    Host.Core.run Sys2Proof.core k s = .next t → SameBlock s t

/-- 60_exceptions.md R103: a CMD write while BUSY = 1 is dropped; OVERRUN and the dropped word are recorded if ERR was 0,
else nothing is; the pending command completes as it would have, and an error of its own does not displace the record. -/
def Obligations.OverrunDoesNotDisturbThePendingCommand : Prop :=
  ∀ (s : State) (p w : Word) (es : List Event), s.pending = some p →
    s.agenda = .access (.write 0x04#5 4 w) :: .blockTurn :: es →
    ∃ u t, step { s with agenda := [] } = .next u ∧ Host.Core.run Sys2Proof.core 2 s = .next t ∧
      t.vr = u.vr ∧ t.mr = u.mr ∧ t.ni = u.ni ∧ t.result = u.result ∧ t.pending = none ∧ t.agenda = es ∧
      t.err = (if s.err = 0#4 then 5#4 else s.err) ∧ t.errcmd = (if s.err = 0#4 then w else s.errcmd)

/-! ### Frames: what a command leaves unchanged (10_state.md R19) -/

/-- LDV, VXOR, VDOT, VMUL and MRD write vr[d] only: every other vector register, every matrix register, NI, RESULT and the
pending latch are unchanged, and so are ERR and ERRCMD unless the command raises an error, which then writes no register. -/
def Obligations.VectorWritersFrame : Prop :=
  ∀ (i : Instr) (d : VReg) (s t : State), writesVec i = some d → exec i s = .next t →
    (∀ r, r ≠ d → t.getV r = s.getV r) ∧ t.mr = s.mr ∧ t.ni = s.ni ∧ t.result = s.result ∧ t.pending = s.pending ∧
    SameWorld s t ∧
    ((t.err = s.err ∧ t.errcmd = s.errcmd) ∨ (s.err = 0#4 ∧ t.errcmd = encode i ∧ t.vr = s.vr))

/-- IDENT, MMOV, MWR, SWAPR and XORR write mr[d] only: every other matrix register, every vector register, NI, RESULT and
the pending latch are unchanged, and so are ERR and ERRCMD unless the command raises an error, which then writes no
register. -/
def Obligations.MatrixWritersFrame : Prop :=
  ∀ (i : Instr) (d : MReg) (s t : State), writesMat i = some d → (∀ a, i ≠ .inv d a) → exec i s = .next t →
    (∀ r, r ≠ d → t.getM r = s.getM r) ∧ t.vr = s.vr ∧ t.ni = s.ni ∧ t.result = s.result ∧ t.pending = s.pending ∧
    SameWorld s t ∧
    ((t.err = s.err ∧ t.errcmd = s.errcmd) ∨ (s.err = 0#4 ∧ t.errcmd = encode i ∧ t.mr = s.mr))

/-- RDV writes RESULT only, INV writes mr[d] and NI only: everything else is unchanged, ERR and ERRCMD unless the command
raises an error, which then writes nothing else. -/
def Obligations.RdvAndInvFrame : Prop :=
  (∀ (a : VReg) (s t : State), exec (.rdv a) s = .next t →
    t.vr = s.vr ∧ t.mr = s.mr ∧ t.ni = s.ni ∧ t.pending = s.pending ∧ SameWorld s t ∧
    ((t.err = s.err ∧ t.errcmd = s.errcmd) ∨
      (s.err = 0#4 ∧ t.errcmd = encode (.rdv a) ∧ t.result = s.result))) ∧
  (∀ (d a : MReg) (s t : State), exec (.inv d a) s = .next t →
    (∀ r, r ≠ d → t.getM r = s.getM r) ∧ t.vr = s.vr ∧ t.result = s.result ∧ t.pending = s.pending ∧ SameWorld s t ∧
    ((t.err = s.err ∧ t.errcmd = s.errcmd) ∨
      (s.err = 0#4 ∧ t.errcmd = encode (.inv d a) ∧ t.mr = s.mr ∧ t.ni = s.ni)))

/-! ### Vector commands: results (each is its command's completion statement) -/

/-- 40_vector.md R74: LDV loads the integer imm as a vector of length len, element i = bit i and the elements from len up
zero; RANGE if len is not in 1..16; DIM_MISMATCH if imm does not fit len bits. -/
def Obligations.LdvLoadsOrRefuses : Prop :=
  ∀ (d : VReg) (imm : Row) (len : Nat) (s : State),
    (1 ≤ len → len ≤ 16 → imm.toNat < 2 ^ len →
      exec (.ldv d imm len) s = .next { s with vr := s.vr.set d (some ⟨len, imm⟩) } ∧
      ∀ k, len ≤ k → imm.getLsbD k = false) ∧
    (len = 0 ∨ 16 < len → RaisesError (.ldv d imm len) s .range) ∧
    (1 ≤ len → len ≤ 16 → 2 ^ len ≤ imm.toNat → RaisesError (.ldv d imm len) s .dimMismatch)

/-- 40_vector.md R75: RDV puts the vector's bits in RESULT[15:0], which is then the integer with bit i weighing 2^i, its
length in RESULT[20:16], zeros above, and changes nothing else; EMPTY_OPERAND if the register is Empty. -/
def Obligations.RdvReadsTheInteger : Prop :=
  ∀ (a : VReg) (s : State),
    (∀ x, s.getV a = some x →
      ∃ w : Word, exec (.rdv a) s = .next { s with result := w } ∧
        w.extractLsb' 0 16 = x.bits ∧ w.extractLsb' 16 5 = BitVec.ofNat 5 x.len ∧ w.extractLsb' 21 11 = 0#11 ∧
        (w.extractLsb' 0 16).toNat = ∑ k ∈ Finset.range 16, if x.bits.getLsbD k then 2 ^ k else 0) ∧
    (s.getV a = none → RaisesError (.rdv a) s .emptyOperand)

/-- 40_vector.md R76: VXOR adds element by element mod 2; equal sources give zero; DIM_MISMATCH if the lengths differ;
EMPTY_OPERAND if a source is Empty. The destination may be a source. -/
def Obligations.VxorAddsElementwise : Prop :=
  ∀ (d a b : VReg) (s : State),
    (∀ x y, s.getV a = some x → s.getV b = some y → x.len = y.len →
      ∃ z : Row, exec (.vxor d a b) s = .next { s with vr := s.vr.set d (some ⟨x.len, z⟩) } ∧
        (∀ k, z.getLsbD k = (x.bits.getLsbD k != y.bits.getLsbD k)) ∧ (a = b → z = 0#16)) ∧
    (∀ x y, s.getV a = some x → s.getV b = some y → x.len ≠ y.len → RaisesError (.vxor d a b) s .dimMismatch) ∧
    (s.getV a = none ∨ s.getV b = none → RaisesError (.vxor d a b) s .emptyOperand)

/-- 40_vector.md R77: VDOT writes the length-1 vector whose element is the XOR over i < len of (x[i] AND y[i]), that is, 1
exactly when an odd number of positions hold 1 in both; errors as VXOR. The operands are legal values (00_scope.md R10). -/
def Obligations.VdotIsTheParityOfTheProducts : Prop :=
  ∀ (d a b : VReg) (s : State),
    (∀ x y, s.getV a = some x → s.getV b = some y → x.wf → y.wf → x.len = y.len →
      exec (.vdot d a b) s = .next { s with vr := s.vr.set d (some ⟨1,
        if ((List.range x.len).countP fun k => x.bits.getLsbD k && y.bits.getLsbD k) % 2 = 1 then 1#16 else 0#16⟩) }) ∧
    (∀ x y, s.getV a = some x → s.getV b = some y → x.len ≠ y.len → RaisesError (.vdot d a b) s .dimMismatch) ∧
    (s.getV a = none ∨ s.getV b = none → RaisesError (.vdot d a b) s .emptyOperand)

/-- 40_vector.md R78: VMUL writes the vector of length dim whose element c is the dot product of x with column c of A; a
zero vector gives zero, e_k gives row k, the identity gives x; DIM_MISMATCH if the sizes differ; EMPTY_OPERAND if a source
is Empty. The operands are legal values (00_scope.md R10). -/
def Obligations.VmulIsTheRowVectorProduct : Prop :=
  ∀ (d a : VReg) (b : MReg) (s : State),
    (∀ x A, s.getV a = some x → s.getM b = some A → x.wf → A.wf → x.len = A.dim →
      ∃ z : Row, exec (.vmul d a b) s = .next { s with vr := s.vr.set d (some ⟨A.dim, z⟩) } ∧
        (∀ c, z.getLsbD c =
          decide (((List.range A.dim).countP fun r => x.bits.getLsbD r && A.entry r c) % 2 = 1)) ∧
        (x.bits = 0#16 → z = 0#16) ∧ (∀ k, k < A.dim → x.bits = 1#16 <<< k → z = rowOf A.rows k) ∧
        (A = MatVal.identity A.dim → z = x.bits)) ∧
    (∀ x A, s.getV a = some x → s.getM b = some A → x.len ≠ A.dim → RaisesError (.vmul d a b) s .dimMismatch) ∧
    (s.getV a = none ∨ s.getM b = none → RaisesError (.vmul d a b) s .emptyOperand)

/-- 40_vector.md R79(a): LDV vd, x, n then RDV vd gives RESULT[15:0] = x and RESULT[20:16] = n for every n in 1..16 and
x < 2^n. -/
def Obligations.LoadThenReadRoundTrip : Prop :=
  ∀ (d : VReg) (imm : Row) (n : Nat) (s : State), 1 ≤ n → n ≤ 16 → imm.toNat < 2 ^ n →
    ∃ u t, exec (.ldv d imm n) s = .next u ∧ exec (.rdv d) u = .next t ∧
      t.result.extractLsb' 0 16 = imm ∧ (t.result.extractLsb' 16 5).toNat = n

/-- 40_vector.md R79(c), (x ^ y) A = (x A) ^ (y A): VXOR of two vectors then VMUL writes the same value as VMUL of each
then VXOR. c, d, p, q and e are any registers, but p keeps x A while y is still to be read and written to q. -/
def Obligations.VmulIsLinear : Prop :=
  ∀ (a b c d p q e : VReg) (m : MReg) (x y : VecVal) (A : MatVal) (s : State),
    s.getV a = some x → s.getV b = some y → s.getM m = some A → x.len = A.dim → y.len = A.dim → p ≠ b → p ≠ q →
    ∃ (u t u₁ u₂ t₂ : State) (z : Row),
      (exec (.vxor c a b) s = .next u ∧ exec (.vmul d c m) u = .next t) ∧
      (exec (.vmul p a m) s = .next u₁ ∧ exec (.vmul q b m) u₁ = .next u₂ ∧ exec (.vxor e p q) u₂ = .next t₂) ∧
      t.getV d = some ⟨A.dim, z⟩ ∧ t₂.getV e = some ⟨A.dim, z⟩

/-- 40_vector.md R79(d), (x A) B = x (A B): VMUL by A then by B writes the same value as VMUL by the matrix `A.mul B`,
whose row r is what MRD of row r of A then VMUL by B writes. d and e are any registers. -/
def Obligations.VmulComposes : Prop :=
  ∀ (a d e : VReg) (i j k : MReg) (x : VecVal) (A B : MatVal) (s : State),
    s.getV a = some x → s.getM i = some A → s.getM j = some B → s.getM k = some (A.mul B) →
    x.len = A.dim → A.dim = B.dim →
    (∃ (u t v : State) (z : Row),
      exec (.vmul d a i) s = .next u ∧ exec (.vmul e d j) u = .next t ∧ exec (.vmul e a k) s = .next v ∧
      t.getV e = some ⟨B.dim, z⟩ ∧ v.getV e = some ⟨B.dim, z⟩) ∧
    (∀ r, r < A.dim → ∃ u t : State, exec (.mrd d i r) s = .next u ∧ exec (.vmul e d j) u = .next t ∧
      t.getV e = some ⟨B.dim, rowOf (A.mul B).rows r⟩)

/-! ### Matrix commands: results (each is its command's completion statement) -/

/-- 41_matrix.md R81: IDENT loads the matrix of dimension n with entry (r, c) = 1 exactly when r = c < n; RANGE if n is not
in 1..16. -/
def Obligations.IdentLoadsTheIdentity : Prop :=
  ∀ (d : MReg) (n : Nat) (s : State),
    (1 ≤ n → n ≤ 16 →
      ∃ A : MatVal, exec (.ident d n) s = .next { s with mr := s.mr.set d (some A) } ∧ A.dim = n ∧
        ∀ r c, A.entry r c = decide (r = c ∧ r < n)) ∧
    (n = 0 ∨ 16 < n → RaisesError (.ident d n) s .range)

/-- 41_matrix.md R82: MMOV copies the source by value; EMPTY_OPERAND if it is Empty; md = ma changes nothing. -/
def Obligations.MmovCopies : Prop :=
  ∀ (d a : MReg) (s : State),
    (∀ A, s.getM a = some A →
      exec (.mmov d a) s = .next { s with mr := s.mr.set d (some A) } ∧ (d = a → exec (.mmov d a) s = .next s)) ∧
    (s.getM a = none → RaisesError (.mmov d a) s .emptyOperand)

/-- 41_matrix.md R83: MWR makes row i the vector, entry (i, c) = x[c], and leaves dim and the other rows; EMPTY_OPERAND if
va or md is Empty, then RANGE if i is not below dim, then DIM_MISMATCH if the sizes differ. Fields hold i at 0 to 15. -/
def Obligations.MwrWritesTheRow : Prop :=
  ∀ (d : MReg) (i : Nat) (a : VReg) (s : State),
    (∀ x A, s.getV a = some x → s.getM d = some A → A.wf → i < A.dim → x.len = A.dim →
      ∃ B : MatVal, exec (.mwr d i a) s = .next { s with mr := s.mr.set d (some B) } ∧ B.dim = A.dim ∧
        (∀ c, B.entry i c = x.bits.getLsbD c) ∧ ∀ r, r ≠ i → rowOf B.rows r = rowOf A.rows r) ∧
    (s.getV a = none ∨ s.getM d = none → RaisesError (.mwr d i a) s .emptyOperand) ∧
    (∀ x A, s.getV a = some x → s.getM d = some A → A.dim ≤ i → RaisesError (.mwr d i a) s .range) ∧
    (∀ x A, s.getV a = some x → s.getM d = some A → i < A.dim → x.len ≠ A.dim →
      RaisesError (.mwr d i a) s .dimMismatch)

/-- 41_matrix.md R84: MRD writes the vector of length dim that is row i; EMPTY_OPERAND if ma is Empty, RANGE if i is not
below dim. -/
def Obligations.MrdReadsTheRow : Prop :=
  ∀ (d : VReg) (a : MReg) (i : Nat) (s : State),
    (∀ A, s.getM a = some A → i < A.dim →
      ∃ z : Row, exec (.mrd d a i) s = .next { s with vr := s.vr.set d (some ⟨A.dim, z⟩) } ∧
        ∀ c, z.getLsbD c = A.entry i c) ∧
    (s.getM a = none → RaisesError (.mrd d a i) s .emptyOperand) ∧
    (∀ A, s.getM a = some A → A.dim ≤ i → RaisesError (.mrd d a i) s .range)

/-- 41_matrix.md R85: SWAPR swaps rows i and j and leaves the others, so i = j changes nothing; EMPTY_OPERAND if md is
Empty, RANGE if i or j is not below dim. -/
def Obligations.SwaprSwapsRows : Prop :=
  ∀ (d : MReg) (i j : Nat) (s : State),
    (∀ A, s.getM d = some A → A.wf → i < A.dim → j < A.dim →
      ∃ B : MatVal, exec (.swapr d i j) s = .next { s with mr := s.mr.set d (some B) } ∧ B.dim = A.dim ∧
        rowOf B.rows i = rowOf A.rows j ∧ rowOf B.rows j = rowOf A.rows i ∧
        (∀ r, r ≠ i → r ≠ j → rowOf B.rows r = rowOf A.rows r) ∧ (i = j → B = A)) ∧
    (s.getM d = none → RaisesError (.swapr d i j) s .emptyOperand) ∧
    (∀ A, s.getM d = some A → A.dim ≤ i ∨ A.dim ≤ j → RaisesError (.swapr d i j) s .range)

/-- 41_matrix.md R86: XORR adds row j into row i and leaves the others, so i = j makes the row zero; EMPTY_OPERAND if md is
Empty, RANGE if i or j is not below dim. -/
def Obligations.XorrAddsTheRow : Prop :=
  ∀ (d : MReg) (i j : Nat) (s : State),
    (∀ A, s.getM d = some A → A.wf → i < A.dim → j < A.dim →
      ∃ B : MatVal, exec (.xorr d i j) s = .next { s with mr := s.mr.set d (some B) } ∧ B.dim = A.dim ∧
        (∀ c, B.entry i c = (A.entry i c != A.entry j c)) ∧
        (∀ r, r ≠ i → rowOf B.rows r = rowOf A.rows r) ∧ (i = j → rowOf B.rows i = 0#16)) ∧
    (s.getM d = none → RaisesError (.xorr d i j) s .emptyOperand) ∧
    (∀ A, s.getM d = some A → A.dim ≤ i ∨ A.dim ≤ j → RaisesError (.xorr d i j) s .range)

/-- 41_matrix.md R87(a): SWAPR twice, and XORR twice with i ≠ j, give back the state they started from. -/
def Obligations.RowPrimitivesAreInvolutions : Prop :=
  ∀ (d : MReg) (i j : Nat) (A : MatVal) (s : State), s.getM d = some A → A.wf → i < A.dim → j < A.dim →
    (∃ t, exec (.swapr d i j) s = .next t ∧ exec (.swapr d i j) t = .next s) ∧
    (i ≠ j → ∃ t, exec (.xorr d i j) s = .next t ∧ exec (.xorr d i j) t = .next s)

/-! ### Inversion -/

/-- When the Gauss-Jordan passes complete, X is a legal matrix and X A = I (42_inversion.md R93, R95(a)). -/
def Obligations.GaussJordanGivesALeftInverse : Prop :=
  ∀ (A : MatVal) (X : Rows), A.wf → gaussJordan A = some X →
    (MatVal.mk A.dim X).wf ∧ (MatVal.mk A.dim X).mul A = MatVal.identity A.dim

/-- 42_inversion.md R95: GaussJordan returns (true, X) exactly when A is invertible over GF(2), and then X is the inverse,
X A = A X = I; it returns (false, -) exactly when A is singular. -/
def Obligations.GaussJordanInvertsExactlyTheInvertible : Prop :=
  ∀ A : MatVal, A.wf →
    ((∃ X, gaussJordan A = some X) ↔
      ∃ B : MatVal, B.wf ∧ B.dim = A.dim ∧ B.mul A = MatVal.identity A.dim ∧ A.mul B = MatVal.identity A.dim) ∧
    (∀ X, gaussJordan A = some X →
      (MatVal.mk A.dim X).mul A = MatVal.identity A.dim ∧ A.mul (MatVal.mk A.dim X) = MatVal.identity A.dim) ∧
    (gaussJordan A = none ↔
      ¬ ∃ B : MatVal, B.wf ∧ B.dim = A.dim ∧ B.mul A = MatVal.identity A.dim ∧ A.mul B = MatVal.identity A.dim)

/-- INV writes the inverse of its source and NI <- 0 when the source is invertible, else Empty and NI <- 1, and changes
nothing else (42_inversion.md R88, R94, R96); the completion statement of INV. The source is a legal value. -/
def Obligations.InvWritesTheInverseOrEmpty : Prop :=
  ∀ (d a : MReg) (A : MatVal) (s : State), s.getM a = some A → A.wf →
    (∀ B : MatVal, B.wf → B.dim = A.dim → B.mul A = MatVal.identity A.dim →
      exec (.inv d a) s = .next { s with mr := s.mr.set d (some B), ni := false }) ∧
    ((¬ ∃ B : MatVal, B.wf ∧ B.dim = A.dim ∧ B.mul A = MatVal.identity A.dim) →
      exec (.inv d a) s = .next { s with mr := s.mr.set d none, ni := true })

/-- INV of an INV of an invertible matrix gives the matrix back, NI = 0 after each (42_inversion.md R96). -/
def Obligations.InvertTwiceReturnsTheMatrix : Prop :=
  ∀ (d e a : MReg) (A : MatVal) (s u : State), s.getM a = some A → A.wf → exec (.inv d a) s = .next u → u.ni = false →
    ∃ t, exec (.inv e d) u = .next t ∧ t.ni = false ∧ t.getM e = some A

/-- 60_exceptions.md R104: an INV on which GaussJordan returns (false, -), a singular source, completes normally: Empty in
md, NI <- 1, ERR and ERRCMD unchanged; and with ERR = 0 the following CMD write is accepted. -/
def Obligations.SingularInvIsNoError : Prop :=
  ∀ (s : State) (w v : Word) (d a : MReg) (A : MatVal) (es : List Event),
    s.agenda = .blockTurn :: .access (.write 0x04#5 4 v) :: es → s.pending = some w → decode w = .ok (.inv d a) →
    s.getM a = some A → gaussJordan A = none →
    ∃ u, step s = .next u ∧ u.getM d = none ∧ u.ni = true ∧ u.err = s.err ∧ u.errcmd = s.errcmd ∧ u.pending = none ∧
      (s.err = 0#4 → ∃ t, step u = .next t ∧ t.pending = some v)

/-! ### Who writes the flags and RESULT -/

/-- A step changes NI only by an INV that completes without error, which leaves NI = 1 exactly when no inverse was found,
or by a reset (10_state.md R21, R29). -/
def Obligations.OnlyInvAndResetChangeNi : Prop :=
  ∀ (s t : State), step s = .next t → t.ni ≠ s.ni →
    (BlockTurnNext s ∧ ∃ w d a A, s.pending = some w ∧ decode w = .ok (.inv d a) ∧ s.getM a = some A ∧
      t.ni = (gaussJordan A).isNone) ∨
    (IsReset t ∧ ((∃ during es, s.agenda = .rst during :: es) ∨
      ∃ off v es, s.agenda = .access (.write off 4 v) :: es ∧ windowReg off = .ctrl ∧ v.getLsbD 0 = true))

/-- A step changes RESULT only by an RDV that completes without error, which puts its vector there, or by a reset
(10_state.md R31). -/
def Obligations.OnlyRdvAndResetChangeResult : Prop :=
  ∀ (s t : State), step s = .next t → t.result ≠ s.result →
    (BlockTurnNext s ∧ ∃ w a x, s.pending = some w ∧ decode w = .ok (.rdv a) ∧ s.getV a = some x ∧
      t.result = resultWord x) ∨
    (IsReset t ∧ ((∃ during es, s.agenda = .rst during :: es) ∨
      ∃ off v es, s.agenda = .access (.write off 4 v) :: es ∧ windowReg off = .ctrl ∧ v.getLsbD 0 = true))

/-! ### The window -/

/-- 10_state.md R25: ID reads 0x47463210 at all times, its bits 7:0 are NMAX = 16, and writes to it are ignored. -/
def Obligations.IdReadsItsConstant : Prop :=
  ∀ (s : State) (es : List Event),
    (s.agenda = .access (.read 0x00#5 4) :: es →
      ∃ t, step s = .next t ∧ SameBlock s t ∧ t.agenda = es ∧ t.readLog = 0x47463210#32 :: s.readLog) ∧
    (∀ v, s.agenda = .access (.write 0x00#5 4 v) :: es → step s = .next { s with agenda := es }) ∧
    (0x47463210#32).extractLsb' 0 8 = BitVec.ofNat 8 Config.nmax

/-- 10_state.md R27: STATUS reads (ERR << 4) | (NI << 1) | BUSY with every other bit 0, BUSY = 1 exactly when a command is
pending; the read has no side effect and a write is ignored. -/
def Obligations.StatusReadsErrNiBusy : Prop :=
  ∀ (s : State) (es : List Event),
    (s.agenda = .access (.read 0x08#5 4) :: es →
      ∃ (t : State) (w : Word), step s = .next t ∧ SameBlock s t ∧ t.agenda = es ∧ t.readLog = w :: s.readLog ∧
        w.getLsbD 0 = s.pending.isSome ∧ w.getLsbD 1 = s.ni ∧ w.extractLsb' 2 2 = 0#2 ∧
        w.extractLsb' 4 4 = s.err ∧ w.extractLsb' 8 24 = 0#24) ∧
    (∀ v, s.agenda = .access (.write 0x08#5 4 v) :: es → step s = .next { s with agenda := es })

/-- RESULT and ERRCMD read what they hold (RESULT when BUSY = 0); the reads have no side effect and writes are ignored
(10_state.md R31, R34, R36). -/
def Obligations.ResultAndErrcmdReadTheirValue : Prop :=
  ∀ (s : State) (es : List Event),
    (s.agenda = .access (.read 0x0C#5 4) :: es → s.pending = none →
      step s = .next { s with agenda := es, readLog := s.result :: s.readLog }) ∧
    (s.agenda = .access (.read 0x14#5 4) :: es →
      step s = .next { s with agenda := es, readLog := s.errcmd :: s.readLog }) ∧
    (∀ off v, off = 0x0C#5 ∨ off = 0x14#5 → s.agenda = .access (.write off 4 v) :: es →
      step s = .next { s with agenda := es })

/-- RESULT read while BUSY = 1 returns an unspecified value (70_reset_and_hazards.md R119) and leaves the block's state
unchanged (20_memory.md R47). That the value is `freeRead` of the counter `draws`, which then advances by 1, is the model's
choice (DESIGN CHOICE, log entry 5). -/
def Obligations.ResultReadWhileBusyIsAFreeValue : Prop :=
  ∀ (s : State) (es : List Event), s.agenda = .access (.read 0x0C#5 4) :: es → s.pending ≠ none →
    ∃ t, step s = .next t ∧ SameBlock s t ∧ t.agenda = es ∧
      t.readLog = Config.freeRead s.draws :: s.readLog ∧ t.draws = s.draws + 1

/-- 10_state.md R35 and R36: the write-only registers CMD and CTRL and the reserved offsets 0x18 and 0x1C read 0 with no
side effect; writes to the read-only registers and to the reserved offsets change no state. -/
def Obligations.AccessRightsOfTheWindow : Prop :=
  ∀ (s : State) (off : BitVec 5) (es : List Event),
    (off = 0x04#5 ∨ off = 0x10#5 ∨ off = 0x18#5 ∨ off = 0x1C#5 → s.agenda = .access (.read off 4) :: es →
      step s = .next { s with agenda := es, readLog := 0#32 :: s.readLog }) ∧
    (∀ v, off = 0x00#5 ∨ off = 0x08#5 ∨ off = 0x0C#5 ∨ off = 0x14#5 ∨ off = 0x18#5 ∨ off = 0x1C#5 →
      s.agenda = .access (.write off 4 v) :: es → step s = .next { s with agenda := es })

/-- Reads have no side effect on the block, at every offset and in every state (20_memory.md R47). -/
def Obligations.ReadsHaveNoSideEffect : Prop :=
  ∀ (s t : State) (off : BitVec 5) (n : Nat) (es : List Event), s.agenda = .access (.read off n) :: es →
    step s = .next t → SameBlock s t ∧ t.agenda = es ∧ ∃ w, t.readLog = w :: s.readLog

/-- 60_exceptions.md R97: a CMD write does exactly one of: while BUSY = 1 it is dropped and, if ERR = 0, recorded as
OVERRUN with its word; else, while ERR is not 0, it is discarded; else it is accepted, undecoded. -/
def Obligations.CmdWriteAcceptsDropsOrDiscards : Prop :=
  ∀ (s : State) (w : Word) (es : List Event), s.agenda = .access (.write 0x04#5 4 w) :: es →
    (s.pending ≠ none → s.err = 0#4 → step s = .next { s with agenda := es, err := 5#4, errcmd := w }) ∧
    (s.pending ≠ none → s.err ≠ 0#4 → step s = .next { s with agenda := es }) ∧
    (s.pending = none → s.err ≠ 0#4 → step s = .next { s with agenda := es }) ∧
    (s.pending = none → s.err = 0#4 → step s = .next { s with agenda := es, pending := some w })

/-- 10_state.md R33: a CTRL write with bit 1 = 1 and bit 0 = 0 clears ERR and ERRCMD and changes nothing else; when bit 0
is 1 the reset happens; CTRL[31:2] are ignored. -/
def Obligations.CtrlWriteResetsOrClears : Prop :=
  ∀ (s : State) (v : Word) (es : List Event), s.agenda = .access (.write 0x10#5 4 v) :: es →
    (v.getLsbD 0 = false → v.getLsbD 1 = true → step s = .next { s with agenda := es, err := 0#4, errcmd := 0#32 }) ∧
    (v.getLsbD 0 = true →
      ∃ t, step s = .next t ∧ IsReset t ∧ t.agenda = es ∧ t.readLog = s.readLog ∧ t.draws = s.draws) ∧
    (v.getLsbD 0 = false → v.getLsbD 1 = false → step s = .next { s with agenda := es })

/-- 60_exceptions.md R105: ERRCLR clears ERR and ERRCMD and restores or changes nothing else, a pending command included;
after it, with nothing pending, the next CMD write is accepted again. -/
def Obligations.ErrorClearLetsCommandsInAgain : Prop :=
  ∀ (s : State) (v w : Word) (es : List Event),
    s.agenda = .access (.write 0x10#5 4 v) :: .access (.write 0x04#5 4 w) :: es →
    v.getLsbD 0 = false → v.getLsbD 1 = true →
    ∃ u, step s = .next u ∧ u.vr = s.vr ∧ u.mr = s.mr ∧ u.ni = s.ni ∧ u.result = s.result ∧ u.pending = s.pending ∧
      u.err = 0#4 ∧ u.errcmd = 0#32 ∧ (s.pending = none → ∃ t, step u = .next t ∧ t.pending = some w)

/-- At an edge with rst = 1 the block's state becomes the reset state, a pending command is abandoned, an access in that
cycle has no effect, and a read is answered with an unspecified value (70_reset_and_hazards.md R114). That this holds of a
narrow or misaligned access too, to which R43 gives no meaning, is the model's choice (DESIGN CHOICE, log entry 7), and so
is the form of the free value, `freeRead` of the counter (log entry 5). -/
def Obligations.HardwareResetAbandonsEverything : Prop :=
  ∀ (s : State) (during : Option Access) (es : List Event), s.agenda = .rst during :: es →
    ∃ t, step s = .next t ∧ IsReset t ∧ t.agenda = es ∧
      ((∃ off n, during = some (.read off n)) → t.readLog = Config.freeRead s.draws :: s.readLog) ∧
      ((¬ ∃ off n, during = some (.read off n)) → t.readLog = s.readLog)

/-- The window is the bytes BASE to BASE+0x1F, BASE is a multiple of 32, and the register is chosen by offset[4:2] alone
(20_memory.md R42). That an access of any size is the block's exactly when its FIRST byte lies there, also one reaching past
the end, and not one that starts below BASE, is the model's (DEDUCED and DESIGN CHOICE, log entry 6). -/
def Obligations.WindowIsThirtyTwoBytesAtBase : Prop :=
  Config.base % 32 = 0 ∧
  (∀ (k n : Nat) (w : Word), k < 32 →
    memRead (Config.base + k) n = some (.access (.read (BitVec.ofNat 5 k) n)) ∧
    memWrite (Config.base + k) n w = some (.access (.write (BitVec.ofNat 5 k) n w))) ∧
  (∀ (addr n : Nat) (w : Word), addr < Config.base ∨ Config.base + 0x1F < addr →
    memRead addr n = none ∧ memWrite addr n w = none) ∧
  (∀ off off' : BitVec 5, off.extractLsb' 2 3 = off'.extractLsb' 2 3 → windowReg off = windowReg off')

/-! ### Reset -/

/-- 10_state.md R37: after reset every vector and matrix register is Empty, NI, ERR, RESULT and ERRCMD are 0 and nothing
is pending. -/
def Obligations.ResetStateIsAsSpecified : Prop :=
  (∀ r, State.reset.getV r = none) ∧ (∀ r, State.reset.getM r = none) ∧ State.reset.ni = false ∧
  State.reset.err = 0#4 ∧ State.reset.result = 0#32 ∧ State.reset.errcmd = 0#32 ∧ State.reset.pending = none ∧
  windowValue State.reset .status = 0#32 ∧ windowValue State.reset .id = 0x47463210#32

/-! ### Invariant and progress -/

/-- The invariant holds after reset. -/
def Obligations.InvariantHoldsAtReset : Prop := State.reset.Inv

/-- Every step keeps the invariant: cells hold only legal values (00_scope.md R10: "never produced by any rule"), ERR stays
0 to 5 (10_state.md R30), ERRCMD is 0 whenever ERR is (R34), RESULT is 0 or what RDV writes (R31). -/
def Obligations.StepKeepsTheInvariant : Prop :=
  ∀ (s t : State), s.Inv → step s = .next t → t.Inv

/-- A pending command always completes (70_reset_and_hazards.md R124, weak fairness): when the host's events are supported
accesses, the machine takes agenda.length + 1 steps without stopping and the run has then ended. That the block's turn
comes when the agenda is used up (log entry 3) and that a run has ended with no final STATUS read made (log entry 18) are
the model's choices (DESIGN CHOICE). -/
def Obligations.EveryCommandCompletes : Prop :=
  ∀ s : State, (∀ e ∈ s.agenda, e.supported = true) →
    ∃ t, Host.Core.run Sys2Proof.core (s.agenda.length + 1) s = .next t ∧ RunEnded t

/-- EXEC (30_encoding.md R70) from an idle block with ERR = 0, whatever the latency k: the command runs exactly once, the
block is then as after its step alone, and the STATUS reads are: idle, k times busy, and the final one with BUSY = 0. That
a latency is the number k of busy polls and that the first WAIT is one poll are the model's choices (DESIGN CHOICE, log
entry 13), as is the condition by which the run has ended (log entry 18). -/
def Obligations.ExecRunsTheCommandOnce : Prop :=
  ∀ (s : State) (w : Word) (k : Nat), s.pending = none → s.err = 0#4 → s.agenda = (HostOp.exec w).events k →
    ∃ u t, step { s with pending := some w, agenda := [] } = .next u ∧
      Host.Core.run Sys2Proof.core (k + 4) s = .next t ∧ SameBlock u t ∧ RunEnded t ∧
      t.readLog = u.status :: (List.replicate k (s.status ||| 1#32) ++ s.status :: s.readLog)

/-- 60_exceptions.md R108: when a host access and a completion fall in the same clock cycle, the completion takes effect
first: a STATUS read sees BUSY = 0, a CMD write is accepted (unless the completed command left an error, R97), an ERRCLR
clears an error just recorded, and an SRST resets after the completion. -/
def Obligations.CompletionTakesEffectFirst : Prop :=
  ∀ (s : State) (p : PortCycle) (w : Word), s.pending = some w → s.agenda = p.events true → p.rst = false → p.sel = true →
    ∃ u t, step { s with agenda := [] } = .next u ∧ u.pending = none ∧
      Host.Core.run Sys2Proof.core 2 s = .next t ∧
      (p.we = false → p.addr = 2#3 → ∃ v, t.readLog = v :: s.readLog ∧ v.getLsbD 0 = false) ∧
      (p.we = true → p.addr = 1#3 → u.err = 0#4 → t.pending = some p.wdata) ∧
      (p.we = true → p.addr = 4#3 → p.wdata.getLsbD 0 = false → p.wdata.getLsbD 1 = true →
        t.err = 0#4 ∧ t.errcmd = 0#32 ∧ t.vr = u.vr ∧ t.mr = u.mr) ∧
      (p.we = true → p.addr = 4#3 → p.wdata.getLsbD 0 = true → IsReset t)
end

