-- ==== Sys2Proof/Laws/Access.lean ====
section
/-! SUPPORT. The two spellings of an access the block does not support (20_memory.md R43): `Access.Misfit`, in which claims
speak, and the check `Access.supported` that a step makes. -/

namespace Sys2Proof.Machine

/-- An offset is a multiple of 4 exactly when its two low bits are 0. -/
theorem offset_misaligned_iff : ∀ off : BitVec 5, off.toNat % 4 ≠ 0 ↔ (off.extractLsb' 0 2 == 0#2) = false := by decide

/-- An access is a misfit exactly when the step's check turns it away. -/
theorem Access.misfit_iff (a : Access) : a.Misfit ↔ a.supported = false := by
  cases a <;> simp only [Access.Misfit, Access.supported, offset_misaligned_iff, Bool.and_eq_false_iff] <;> simp

end Sys2Proof.Machine
end

