-- ==== Sys2Proof/Laws/Decode.lean ====
section
/-! SUPPORT. The encoder's formats as numbers and the decoder's fields of a word as quotients and remainders, so that
facts about fields become linear arithmetic. -/

namespace Sys2Proof

theorem shiftLeft_or_eq_add {x y k : Nat} (h : y < 2 ^ k) : x <<< k ||| y = x * 2 ^ k + y := by
  rw [← Nat.shiftLeft_add_eq_or_of_lt h, Nat.shiftLeft_eq]

theorem formatR_toNat {op : Nat} (h : op < 64) (d a b : Fin 8) :
    (formatR op d a b).toNat = op * 2 ^ 26 + (d.val * 2 ^ 23 + (a.val * 2 ^ 20 + b.val * 2 ^ 17)) := by
  have hd := d.isLt
  have ha := a.isLt
  have hb := b.isLt
  have fits : ∀ x k : Nat, x < 64 → k ≤ 26 → x <<< k % 2 ^ 32 = x <<< k := fun x k hx hk => by
    refine Nat.mod_eq_of_lt ?_
    rw [Nat.shiftLeft_eq]
    calc x * 2 ^ k ≤ x * 2 ^ 26 := Nat.mul_le_mul_left _ (Nat.pow_le_pow_right (by decide) hk)
      _ < 2 ^ 32 := by omega
  simp only [formatR, BitVec.toNat_or, BitVec.toNat_shiftLeft, BitVec.toNat_ofNat, Nat.or_assoc]
  rw [Nat.mod_eq_of_lt (a := op) (by omega), Nat.mod_eq_of_lt (a := d.val) (by omega),
    Nat.mod_eq_of_lt (a := a.val) (by omega), Nat.mod_eq_of_lt (a := b.val) (by omega), fits op 26 h (by decide),
    fits d.val 23 (by omega) (by decide), fits a.val 20 (by omega) (by decide), fits b.val 17 (by omega) (by decide),
    Nat.shiftLeft_eq b.val, shiftLeft_or_eq_add (k := 20) (by omega), shiftLeft_or_eq_add (k := 23) (by omega),
    shiftLeft_or_eq_add (k := 26) (by omega)]

theorem formatI_toNat {op len : Nat} (h : op < 64) (hl : len < 32) (d : Fin 8) (imm : Row) :
    (formatI op d len imm).toNat = op * 2 ^ 26 + (d.val * 2 ^ 23 + (len * 2 ^ 16 + imm.toNat)) := by
  have hd := d.isLt
  have hi := imm.isLt
  simp only [formatI, BitVec.toNat_or, BitVec.toNat_shiftLeft, BitVec.toNat_ofNat, Nat.or_assoc, BitVec.toNat_setWidth]
  rw [Nat.mod_eq_of_lt (a := op) (by omega), Nat.mod_eq_of_lt (a := d.val) (by omega),
    Nat.mod_eq_of_lt (a := len) (by omega), Nat.mod_eq_of_lt (a := imm.toNat) (by omega),
    Nat.mod_eq_of_lt (a := op <<< 26) (by rw [Nat.shiftLeft_eq]; omega),
    Nat.mod_eq_of_lt (a := d.val <<< 23) (by rw [Nat.shiftLeft_eq]; omega),
    Nat.mod_eq_of_lt (a := len <<< 16) (by rw [Nat.shiftLeft_eq]; omega),
    shiftLeft_or_eq_add (k := 16) (by omega), shiftLeft_or_eq_add (k := 23) (by omega),
    shiftLeft_or_eq_add (k := 26) (by omega)]

theorem formatX_toNat {op i j : Nat} (h : op < 64) (hi : i < 16) (hj : j < 16) (d a : Fin 8) :
    (formatX op d a i j).toNat = op * 2 ^ 26 + (d.val * 2 ^ 23 + (a.val * 2 ^ 20 + (i * 2 ^ 4 + j))) := by
  have hd := d.isLt
  have ha := a.isLt
  simp only [formatX, BitVec.toNat_or, BitVec.toNat_shiftLeft, BitVec.toNat_ofNat, Nat.or_assoc]
  rw [Nat.mod_eq_of_lt (a := op) (by omega), Nat.mod_eq_of_lt (a := d.val) (by omega),
    Nat.mod_eq_of_lt (a := a.val) (by omega), Nat.mod_eq_of_lt (a := i) (by omega), Nat.mod_eq_of_lt (a := j) (by omega),
    Nat.mod_eq_of_lt (a := op <<< 26) (by rw [Nat.shiftLeft_eq]; omega),
    Nat.mod_eq_of_lt (a := d.val <<< 23) (by rw [Nat.shiftLeft_eq]; omega),
    Nat.mod_eq_of_lt (a := a.val <<< 20) (by rw [Nat.shiftLeft_eq]; omega),
    Nat.mod_eq_of_lt (a := i <<< 4) (by rw [Nat.shiftLeft_eq]; omega),
    shiftLeft_or_eq_add (k := 4) (by omega), shiftLeft_or_eq_add (k := 20) (by omega),
    shiftLeft_or_eq_add (k := 23) (by omega), shiftLeft_or_eq_add (k := 26) (by omega)]

theorem opField_toNat (w : Word) : (opField w).toNat = w.toNat / 2 ^ 26 := by
  simp [opField, BitVec.extractLsb'_toNat, Nat.shiftRight_eq_div_pow]; omega
theorem dField_val (w : Word) : (dField w).val = w.toNat / 2 ^ 23 % 8 := by
  simp [dField, Nat.shiftRight_eq_div_pow]
theorem aField_val (w : Word) : (aField w).val = w.toNat / 2 ^ 20 % 8 := by
  simp [aField, Nat.shiftRight_eq_div_pow]
theorem bField_val (w : Word) : (bField w).val = w.toNat / 2 ^ 17 % 8 := by
  simp [bField, Nat.shiftRight_eq_div_pow]
theorem lField_eq (w : Word) : lField w = w.toNat / 2 ^ 16 % 32 := by
  simp [lField, Nat.shiftRight_eq_div_pow]
theorem immField_toNat (w : Word) : (immField w).toNat = w.toNat % 2 ^ 16 := by
  simp [immField]
theorem iField_eq (w : Word) : iField w = w.toNat / 2 ^ 4 % 16 := by
  simp [iField, Nat.shiftRight_eq_div_pow]
theorem jField_eq (w : Word) : jField w = w.toNat % 16 := by
  simp [jField]

/-- The fields of a format R word. -/
theorem formatR_fields {op : Nat} (h : op < 64) (d a b : Fin 8) :
    opField (formatR op d a b) = BitVec.ofNat 6 op ∧ dField (formatR op d a b) = d ∧
      aField (formatR op d a b) = a ∧ bField (formatR op d a b) = b := by
  have hd := d.isLt
  have ha := a.isLt
  have hb := b.isLt
  refine ⟨BitVec.eq_of_toNat_eq ?_, Fin.ext ?_, Fin.ext ?_, Fin.ext ?_⟩
  · rw [opField_toNat, formatR_toNat h, BitVec.toNat_ofNat]; omega
  · rw [dField_val, formatR_toNat h]; omega
  · rw [aField_val, formatR_toNat h]; omega
  · rw [bField_val, formatR_toNat h]; omega

/-- The fields of a format I word. -/
theorem formatI_fields {op len : Nat} (h : op < 64) (hl : len < 32) (d : Fin 8) (imm : Row) :
    opField (formatI op d len imm) = BitVec.ofNat 6 op ∧ dField (formatI op d len imm) = d ∧
      lField (formatI op d len imm) = len ∧ immField (formatI op d len imm) = imm := by
  have hd := d.isLt
  have hi := imm.isLt
  refine ⟨BitVec.eq_of_toNat_eq ?_, Fin.ext ?_, ?_, BitVec.eq_of_toNat_eq ?_⟩
  · rw [opField_toNat, formatI_toNat h hl, BitVec.toNat_ofNat]; omega
  · rw [dField_val, formatI_toNat h hl]; omega
  · rw [lField_eq, formatI_toNat h hl]; omega
  · rw [immField_toNat, formatI_toNat h hl]; omega

/-- The fields of a format X word. -/
theorem formatX_fields {op i j : Nat} (h : op < 64) (hi : i < 16) (hj : j < 16) (d a : Fin 8) :
    opField (formatX op d a i j) = BitVec.ofNat 6 op ∧ dField (formatX op d a i j) = d ∧
      aField (formatX op d a i j) = a ∧ iField (formatX op d a i j) = i ∧ jField (formatX op d a i j) = j := by
  have hd := d.isLt
  have ha := a.isLt
  refine ⟨BitVec.eq_of_toNat_eq ?_, Fin.ext ?_, Fin.ext ?_, ?_, ?_⟩
  · rw [opField_toNat, formatX_toNat h hi hj, BitVec.toNat_ofNat]; omega
  · rw [dField_val, formatX_toNat h hi hj]; omega
  · rw [aField_val, formatX_toNat h hi hj]; omega
  · rw [iField_eq, formatX_toNat h hi hj]; omega
  · rw [jField_eq, formatX_toNat h hi hj]; omega

/-- What a checked row answers with, and when. -/
theorem checked_ok {r : TableRow} {w : Word} {i k : Instr} :
    checked r w i = .ok k ↔ w &&& r.mask = r.pattern ∧ i = k := by
  unfold checked
  split <;> simp_all

end Sys2Proof
end

