-- ==== Sys2Proof/Laws/State.lean ====
section
/-! SUPPORT. One lemma per field per state update (Ops.lean, Flags.lean), each true by unfolding, so that no proof
unfolds a record update; then reading a register after writing one, and the fields a recorded error leaves alone. -/

namespace Sys2Proof.Machine

variable (s : State)

/-! ### setV -/

@[simp] theorem State.setV_vr (r : VReg) (c : VCell) : (s.setV r c).vr = s.vr.set r c := rfl
@[simp] theorem State.setV_mr (r : VReg) (c : VCell) : (s.setV r c).mr = s.mr := rfl
@[simp] theorem State.setV_ni (r : VReg) (c : VCell) : (s.setV r c).ni = s.ni := rfl
@[simp] theorem State.setV_err (r : VReg) (c : VCell) : (s.setV r c).err = s.err := rfl
@[simp] theorem State.setV_result (r : VReg) (c : VCell) : (s.setV r c).result = s.result := rfl
@[simp] theorem State.setV_errcmd (r : VReg) (c : VCell) : (s.setV r c).errcmd = s.errcmd := rfl
@[simp] theorem State.setV_pending (r : VReg) (c : VCell) : (s.setV r c).pending = s.pending := rfl
@[simp] theorem State.setV_agenda (r : VReg) (c : VCell) : (s.setV r c).agenda = s.agenda := rfl
@[simp] theorem State.setV_readLog (r : VReg) (c : VCell) : (s.setV r c).readLog = s.readLog := rfl
@[simp] theorem State.setV_draws (r : VReg) (c : VCell) : (s.setV r c).draws = s.draws := rfl

/-! ### setM -/

@[simp] theorem State.setM_vr (r : MReg) (c : MCell) : (s.setM r c).vr = s.vr := rfl
@[simp] theorem State.setM_mr (r : MReg) (c : MCell) : (s.setM r c).mr = s.mr.set r c := rfl
@[simp] theorem State.setM_ni (r : MReg) (c : MCell) : (s.setM r c).ni = s.ni := rfl
@[simp] theorem State.setM_err (r : MReg) (c : MCell) : (s.setM r c).err = s.err := rfl
@[simp] theorem State.setM_result (r : MReg) (c : MCell) : (s.setM r c).result = s.result := rfl
@[simp] theorem State.setM_errcmd (r : MReg) (c : MCell) : (s.setM r c).errcmd = s.errcmd := rfl
@[simp] theorem State.setM_pending (r : MReg) (c : MCell) : (s.setM r c).pending = s.pending := rfl
@[simp] theorem State.setM_agenda (r : MReg) (c : MCell) : (s.setM r c).agenda = s.agenda := rfl
@[simp] theorem State.setM_readLog (r : MReg) (c : MCell) : (s.setM r c).readLog = s.readLog := rfl
@[simp] theorem State.setM_draws (r : MReg) (c : MCell) : (s.setM r c).draws = s.draws := rfl

/-! ### setResult -/

@[simp] theorem State.setResult_vr (w : Word) : (s.setResult w).vr = s.vr := rfl
@[simp] theorem State.setResult_mr (w : Word) : (s.setResult w).mr = s.mr := rfl
@[simp] theorem State.setResult_ni (w : Word) : (s.setResult w).ni = s.ni := rfl
@[simp] theorem State.setResult_err (w : Word) : (s.setResult w).err = s.err := rfl
@[simp] theorem State.setResult_result (w : Word) : (s.setResult w).result = w := rfl
@[simp] theorem State.setResult_errcmd (w : Word) : (s.setResult w).errcmd = s.errcmd := rfl
@[simp] theorem State.setResult_pending (w : Word) : (s.setResult w).pending = s.pending := rfl
@[simp] theorem State.setResult_agenda (w : Word) : (s.setResult w).agenda = s.agenda := rfl
@[simp] theorem State.setResult_readLog (w : Word) : (s.setResult w).readLog = s.readLog := rfl
@[simp] theorem State.setResult_draws (w : Word) : (s.setResult w).draws = s.draws := rfl

/-! ### setNi -/

@[simp] theorem State.setNi_vr (b : Bool) : (s.setNi b).vr = s.vr := rfl
@[simp] theorem State.setNi_mr (b : Bool) : (s.setNi b).mr = s.mr := rfl
@[simp] theorem State.setNi_ni (b : Bool) : (s.setNi b).ni = b := rfl
@[simp] theorem State.setNi_err (b : Bool) : (s.setNi b).err = s.err := rfl
@[simp] theorem State.setNi_result (b : Bool) : (s.setNi b).result = s.result := rfl
@[simp] theorem State.setNi_errcmd (b : Bool) : (s.setNi b).errcmd = s.errcmd := rfl
@[simp] theorem State.setNi_pending (b : Bool) : (s.setNi b).pending = s.pending := rfl
@[simp] theorem State.setNi_agenda (b : Bool) : (s.setNi b).agenda = s.agenda := rfl
@[simp] theorem State.setNi_readLog (b : Bool) : (s.setNi b).readLog = s.readLog := rfl
@[simp] theorem State.setNi_draws (b : Bool) : (s.setNi b).draws = s.draws := rfl

/-! ### latch -/

@[simp] theorem State.latch_vr (w : Word) : (s.latch w).vr = s.vr := rfl
@[simp] theorem State.latch_mr (w : Word) : (s.latch w).mr = s.mr := rfl
@[simp] theorem State.latch_ni (w : Word) : (s.latch w).ni = s.ni := rfl
@[simp] theorem State.latch_err (w : Word) : (s.latch w).err = s.err := rfl
@[simp] theorem State.latch_result (w : Word) : (s.latch w).result = s.result := rfl
@[simp] theorem State.latch_errcmd (w : Word) : (s.latch w).errcmd = s.errcmd := rfl
@[simp] theorem State.latch_pending (w : Word) : (s.latch w).pending = some w := rfl
@[simp] theorem State.latch_agenda (w : Word) : (s.latch w).agenda = s.agenda := rfl
@[simp] theorem State.latch_readLog (w : Word) : (s.latch w).readLog = s.readLog := rfl
@[simp] theorem State.latch_draws (w : Word) : (s.latch w).draws = s.draws := rfl

/-! ### retire -/

@[simp] theorem State.retire_vr : (s.retire).vr = s.vr := rfl
@[simp] theorem State.retire_mr : (s.retire).mr = s.mr := rfl
@[simp] theorem State.retire_ni : (s.retire).ni = s.ni := rfl
@[simp] theorem State.retire_err : (s.retire).err = s.err := rfl
@[simp] theorem State.retire_result : (s.retire).result = s.result := rfl
@[simp] theorem State.retire_errcmd : (s.retire).errcmd = s.errcmd := rfl
@[simp] theorem State.retire_pending : (s.retire).pending = none := rfl
@[simp] theorem State.retire_agenda : (s.retire).agenda = s.agenda := rfl
@[simp] theorem State.retire_readLog : (s.retire).readLog = s.readLog := rfl
@[simp] theorem State.retire_draws : (s.retire).draws = s.draws := rfl

/-! ### setError -/

@[simp] theorem State.setError_vr (c : ErrorCode) (w : Word) : (s.setError c w).vr = s.vr := rfl
@[simp] theorem State.setError_mr (c : ErrorCode) (w : Word) : (s.setError c w).mr = s.mr := rfl
@[simp] theorem State.setError_ni (c : ErrorCode) (w : Word) : (s.setError c w).ni = s.ni := rfl
@[simp] theorem State.setError_err (c : ErrorCode) (w : Word) : (s.setError c w).err = c.code := rfl
@[simp] theorem State.setError_result (c : ErrorCode) (w : Word) : (s.setError c w).result = s.result := rfl
@[simp] theorem State.setError_errcmd (c : ErrorCode) (w : Word) : (s.setError c w).errcmd = w := rfl
@[simp] theorem State.setError_pending (c : ErrorCode) (w : Word) : (s.setError c w).pending = s.pending := rfl
@[simp] theorem State.setError_agenda (c : ErrorCode) (w : Word) : (s.setError c w).agenda = s.agenda := rfl
@[simp] theorem State.setError_readLog (c : ErrorCode) (w : Word) : (s.setError c w).readLog = s.readLog := rfl
@[simp] theorem State.setError_draws (c : ErrorCode) (w : Word) : (s.setError c w).draws = s.draws := rfl

/-! ### clearError -/

@[simp] theorem State.clearError_vr : (s.clearError).vr = s.vr := rfl
@[simp] theorem State.clearError_mr : (s.clearError).mr = s.mr := rfl
@[simp] theorem State.clearError_ni : (s.clearError).ni = s.ni := rfl
@[simp] theorem State.clearError_err : (s.clearError).err = 0#4 := rfl
@[simp] theorem State.clearError_result : (s.clearError).result = s.result := rfl
@[simp] theorem State.clearError_errcmd : (s.clearError).errcmd = 0#32 := rfl
@[simp] theorem State.clearError_pending : (s.clearError).pending = s.pending := rfl
@[simp] theorem State.clearError_agenda : (s.clearError).agenda = s.agenda := rfl
@[simp] theorem State.clearError_readLog : (s.clearError).readLog = s.readLog := rfl
@[simp] theorem State.clearError_draws : (s.clearError).draws = s.draws := rfl

/-! ### withAgenda -/

@[simp] theorem State.withAgenda_vr (es : List Event) : (s.withAgenda es).vr = s.vr := rfl
@[simp] theorem State.withAgenda_mr (es : List Event) : (s.withAgenda es).mr = s.mr := rfl
@[simp] theorem State.withAgenda_ni (es : List Event) : (s.withAgenda es).ni = s.ni := rfl
@[simp] theorem State.withAgenda_err (es : List Event) : (s.withAgenda es).err = s.err := rfl
@[simp] theorem State.withAgenda_result (es : List Event) : (s.withAgenda es).result = s.result := rfl
@[simp] theorem State.withAgenda_errcmd (es : List Event) : (s.withAgenda es).errcmd = s.errcmd := rfl
@[simp] theorem State.withAgenda_pending (es : List Event) : (s.withAgenda es).pending = s.pending := rfl
@[simp] theorem State.withAgenda_agenda (es : List Event) : (s.withAgenda es).agenda = es := rfl
@[simp] theorem State.withAgenda_readLog (es : List Event) : (s.withAgenda es).readLog = s.readLog := rfl
@[simp] theorem State.withAgenda_draws (es : List Event) : (s.withAgenda es).draws = s.draws := rfl

/-! ### answer -/

@[simp] theorem State.answer_vr (w : Word) : (s.answer w).vr = s.vr := rfl
@[simp] theorem State.answer_mr (w : Word) : (s.answer w).mr = s.mr := rfl
@[simp] theorem State.answer_ni (w : Word) : (s.answer w).ni = s.ni := rfl
@[simp] theorem State.answer_err (w : Word) : (s.answer w).err = s.err := rfl
@[simp] theorem State.answer_result (w : Word) : (s.answer w).result = s.result := rfl
@[simp] theorem State.answer_errcmd (w : Word) : (s.answer w).errcmd = s.errcmd := rfl
@[simp] theorem State.answer_pending (w : Word) : (s.answer w).pending = s.pending := rfl
@[simp] theorem State.answer_agenda (w : Word) : (s.answer w).agenda = s.agenda := rfl
@[simp] theorem State.answer_readLog (w : Word) : (s.answer w).readLog = w :: s.readLog := rfl
@[simp] theorem State.answer_draws (w : Word) : (s.answer w).draws = s.draws := rfl

/-! ### answerFree -/

@[simp] theorem State.answerFree_vr : (s.answerFree).vr = s.vr := rfl
@[simp] theorem State.answerFree_mr : (s.answerFree).mr = s.mr := rfl
@[simp] theorem State.answerFree_ni : (s.answerFree).ni = s.ni := rfl
@[simp] theorem State.answerFree_err : (s.answerFree).err = s.err := rfl
@[simp] theorem State.answerFree_result : (s.answerFree).result = s.result := rfl
@[simp] theorem State.answerFree_errcmd : (s.answerFree).errcmd = s.errcmd := rfl
@[simp] theorem State.answerFree_pending : (s.answerFree).pending = s.pending := rfl
@[simp] theorem State.answerFree_agenda : (s.answerFree).agenda = s.agenda := rfl
@[simp] theorem State.answerFree_readLog : (s.answerFree).readLog = Config.freeRead s.draws :: s.readLog := rfl
@[simp] theorem State.answerFree_draws : (s.answerFree).draws = s.draws + 1 := rfl

/-! ### resetBlock -/

@[simp] theorem State.resetBlock_vr : (s.resetBlock).vr = Vector.replicate 8 none := rfl
@[simp] theorem State.resetBlock_mr : (s.resetBlock).mr = Vector.replicate 8 none := rfl
@[simp] theorem State.resetBlock_ni : (s.resetBlock).ni = false := rfl
@[simp] theorem State.resetBlock_err : (s.resetBlock).err = 0#4 := rfl
@[simp] theorem State.resetBlock_result : (s.resetBlock).result = 0#32 := rfl
@[simp] theorem State.resetBlock_errcmd : (s.resetBlock).errcmd = 0#32 := rfl
@[simp] theorem State.resetBlock_pending : (s.resetBlock).pending = none := rfl
@[simp] theorem State.resetBlock_agenda : (s.resetBlock).agenda = s.agenda := rfl
@[simp] theorem State.resetBlock_readLog : (s.resetBlock).readLog = s.readLog := rfl
@[simp] theorem State.resetBlock_draws : (s.resetBlock).draws = s.draws := rfl

/-! ### setInverse -/

@[simp] theorem State.setInverse_vr (d : MReg) (c : MCell) : (s.setInverse d c).vr = s.vr := rfl
@[simp] theorem State.setInverse_mr (d : MReg) (c : MCell) : (s.setInverse d c).mr = s.mr.set d c := rfl
@[simp] theorem State.setInverse_ni (d : MReg) (c : MCell) : (s.setInverse d c).ni = c.isNone := rfl
@[simp] theorem State.setInverse_err (d : MReg) (c : MCell) : (s.setInverse d c).err = s.err := rfl
@[simp] theorem State.setInverse_result (d : MReg) (c : MCell) : (s.setInverse d c).result = s.result := rfl
@[simp] theorem State.setInverse_errcmd (d : MReg) (c : MCell) : (s.setInverse d c).errcmd = s.errcmd := rfl
@[simp] theorem State.setInverse_pending (d : MReg) (c : MCell) : (s.setInverse d c).pending = s.pending := rfl
@[simp] theorem State.setInverse_agenda (d : MReg) (c : MCell) : (s.setInverse d c).agenda = s.agenda := rfl
@[simp] theorem State.setInverse_readLog (d : MReg) (c : MCell) : (s.setInverse d c).readLog = s.readLog := rfl
@[simp] theorem State.setInverse_draws (d : MReg) (c : MCell) : (s.setInverse d c).draws = s.draws := rfl

/-! ### Reading after writing -/

@[simp] theorem getV_setV_self (r : VReg) (c : VCell) : (s.setV r c).getV r = c := by
  simp [State.getV, State.setV, Vector.get_eq_getElem]

theorem getV_setV_ne (r q : VReg) (c : VCell) (h : q ≠ r) : (s.setV r c).getV q = s.getV q := by
  simp only [State.getV, State.setV, Vector.get_eq_getElem]
  exact Vector.getElem_set_ne _ _ fun e => h (Fin.ext e.symm)

@[simp] theorem getM_setM_self (r : MReg) (c : MCell) : (s.setM r c).getM r = c := by
  simp [State.getM, State.setM, Vector.get_eq_getElem]

theorem getM_setM_ne (r q : MReg) (c : MCell) (h : q ≠ r) : (s.setM r c).getM q = s.getM q := by
  simp only [State.getM, State.setM, Vector.get_eq_getElem]
  exact Vector.getElem_set_ne _ _ fun e => h (Fin.ext e.symm)

@[simp] theorem getM_setV (r : VReg) (c : VCell) (q : MReg) : (s.setV r c).getM q = s.getM q := rfl
@[simp] theorem getV_setM (r : MReg) (c : MCell) (q : VReg) : (s.setM r c).getV q = s.getV q := rfl

/-! ### Recording an error -/

@[simp] theorem State.raiseError_vr (c : ErrorCode) (w : Word) : (s.raiseError c w).vr = s.vr := by
  unfold State.raiseError; split <;> rfl
@[simp] theorem State.raiseError_mr (c : ErrorCode) (w : Word) : (s.raiseError c w).mr = s.mr := by
  unfold State.raiseError; split <;> rfl
@[simp] theorem State.raiseError_ni (c : ErrorCode) (w : Word) : (s.raiseError c w).ni = s.ni := by
  unfold State.raiseError; split <;> rfl
@[simp] theorem State.raiseError_result (c : ErrorCode) (w : Word) : (s.raiseError c w).result = s.result := by
  unfold State.raiseError; split <;> rfl
@[simp] theorem State.raiseError_pending (c : ErrorCode) (w : Word) : (s.raiseError c w).pending = s.pending := by
  unfold State.raiseError; split <;> rfl
@[simp] theorem State.raiseError_agenda (c : ErrorCode) (w : Word) : (s.raiseError c w).agenda = s.agenda := by
  unfold State.raiseError; split <;> rfl
@[simp] theorem State.raiseError_readLog (c : ErrorCode) (w : Word) : (s.raiseError c w).readLog = s.readLog := by
  unfold State.raiseError; split <;> rfl
@[simp] theorem State.raiseError_draws (c : ErrorCode) (w : Word) : (s.raiseError c w).draws = s.draws := by
  unfold State.raiseError; split <;> rfl

theorem State.raiseError_of_zero (c : ErrorCode) (w : Word) (h : s.err = 0#4) : s.raiseError c w = s.setError c w :=
  if_pos h

theorem State.raiseError_of_ne (c : ErrorCode) (w : Word) (h : s.err ≠ 0#4) : s.raiseError c w = s := if_neg h

/-- Everything recording an error can do: nothing, or (only if ERR was 0) write ERR and ERRCMD. -/
theorem State.raiseError_cases (c : ErrorCode) (w : Word) :
    (s.err ≠ 0#4 ∧ s.raiseError c w = s) ∨ (s.err = 0#4 ∧ s.raiseError c w = s.setError c w) := by
  by_cases h : s.err = 0#4
  · exact .inr ⟨h, s.raiseError_of_zero c w h⟩
  · exact .inl ⟨h, s.raiseError_of_ne c w h⟩

/-- No error code is 0, and none is above 5 (60_exceptions.md R99). -/
theorem ErrorCode.code_range (c : ErrorCode) : c.code ≠ 0#4 ∧ c.code ≤ 5#4 := by cases c <;> decide

end Sys2Proof.Machine
end

