-- ==== Sys2Proof/Laws/Ops.lean ====
section
/-! SUPPORT. Everything each shared operation can do: the checks, the operand reads, how a command ends, and the host's
accesses. Proofs cite these and do not unfold the operations. -/

namespace Sys2Proof.Machine

/-! ### Checks and operands -/

@[simp] theorem require_of {p : Prop} [Decidable p] (c : ErrorCode) (h : p) : require p c = .ok () := if_pos h
@[simp] theorem require_of_not {p : Prop} [Decidable p] (c : ErrorCode) (h : ¬p) : require p c = .error c := if_neg h

theorem require_ok {p : Prop} [Decidable p] {c : ErrorCode} {u : Unit} : require p c = .ok u ↔ p := by
  unfold require; split <;> simp_all

theorem require_error {p : Prop} [Decidable p] {c e : ErrorCode} : require p c = .error e ↔ ¬p ∧ c = e := by
  unfold require; split <;> simp_all

/-- A check that holds lets the rule go on. -/
@[simp] theorem bind_ok {α β : Type} (x : α) (f : α → Except ErrorCode β) : (Except.ok x >>= f) = f x := rfl
/-- A check that fails ends the rule. -/
@[simp] theorem bind_error {α β : Type} (c : ErrorCode) (f : α → Except ErrorCode β) :
    ((Except.error c : Except ErrorCode α) >>= f) = .error c := rfl
@[simp] theorem pure_eq_ok {α : Type} (x : α) : (pure x : Except ErrorCode α) = .ok x := rfl

theorem vecOperand_of_some {s : State} {r : VReg} {x : VecVal} (h : s.getV r = some x) : vecOperand s r = .ok x := by
  simp [vecOperand, h]
theorem vecOperand_of_none {s : State} {r : VReg} (h : s.getV r = none) : vecOperand s r = .error .emptyOperand := by
  simp [vecOperand, h]
theorem matOperand_of_some {s : State} {r : MReg} {A : MatVal} (h : s.getM r = some A) : matOperand s r = .ok A := by
  simp [matOperand, h]
theorem matOperand_of_none {s : State} {r : MReg} (h : s.getM r = none) : matOperand s r = .error .emptyOperand := by
  simp [matOperand, h]

theorem requireSize_of {n : Nat} (h : legalSize n) : requireSize n = .ok () := require_of _ h
theorem requireSize_of_not {n : Nat} (h : ¬legalSize n) : requireSize n = .error .range := require_of_not _ h
theorem requireRow_of {A : MatVal} {i : Nat} (h : i < A.dim) : requireRow A i = .ok () := require_of _ h
theorem requireRow_of_ge {A : MatVal} {i : Nat} (h : A.dim ≤ i) : requireRow A i = .error .range :=
  require_of_not _ (by omega)
theorem requireSameSize_of {m n : Nat} (h : m = n) : requireSameSize m n = .ok () := require_of _ h
theorem requireSameSize_of_ne {m n : Nat} (h : m ≠ n) : requireSameSize m n = .error .dimMismatch := require_of_not _ h

theorem vecOperand_ok {s : State} {r : VReg} {x : VecVal} : vecOperand s r = .ok x ↔ s.getV r = some x := by
  unfold vecOperand; split <;> simp_all

theorem vecOperand_error {s : State} {r : VReg} {e : ErrorCode} :
    vecOperand s r = .error e ↔ s.getV r = none ∧ e = .emptyOperand := by
  unfold vecOperand
  cases s.getV r <;> simp [eq_comm]

theorem matOperand_ok {s : State} {r : MReg} {A : MatVal} : matOperand s r = .ok A ↔ s.getM r = some A := by
  unfold matOperand; split <;> simp_all

theorem matOperand_error {s : State} {r : MReg} {e : ErrorCode} :
    matOperand s r = .error e ↔ s.getM r = none ∧ e = .emptyOperand := by
  unfold matOperand
  cases s.getM r <;> simp [eq_comm]

/-! ### How a command ends -/

@[simp] theorem finish_ok (i : Instr) (s t : State) : finish i s (.ok t) = .next t := rfl
@[simp] theorem finish_error (i : Instr) (s : State) (c : ErrorCode) :
    finish i s (.error c) = .next (s.raiseError c (encode i)) := rfl

/-- A command's rule always answers with a next state: its own, or the one with the error recorded. -/
theorem finish_next {i : Instr} {s t : State} {r : Except ErrorCode State} :
    finish i s r = .next t ↔ r = .ok t ∨ ∃ c, r = .error c ∧ t = s.raiseError c (encode i) := by
  cases r <;> simp [finish, eq_comm]

@[simp] theorem retireOutcome_next (s : State) : retireOutcome (.next s) = .next s.retire := rfl

/-! ### Accesses -/

/-- Everything a host read can do: give one answer, or the next unspecified value. -/
theorem hostRead_cases (r : WindowReg) (s : State) :
    (hostRead r s = s.answerFree ∧ r = .result ∧ s.busy = true) ∨
      (hostRead r s = s.answer (windowValue s r) ∧ ¬(r = .result ∧ s.busy = true)) := by
  unfold hostRead
  split <;> simp_all

/-- Everything a CMD write can do (60_exceptions.md R97). -/
theorem offerCommand_cases (w : Word) (s : State) :
    (s.pending ≠ none ∧ offerCommand w s = s.raiseError .overrun w) ∨
      (s.pending = none ∧ s.err ≠ 0#4 ∧ offerCommand w s = s) ∨
      (s.pending = none ∧ s.err = 0#4 ∧ offerCommand w s = s.latch w) := by
  unfold offerCommand
  cases s.pending with
  | some p => simp
  | none =>
    by_cases h : s.err = 0#4
    · exact .inr (.inr ⟨rfl, h, if_pos h⟩)
    · exact .inr (.inl ⟨rfl, h, if_neg h⟩)

/-- Everything a CTRL write can do (10_state.md R32, R33). -/
theorem writeCtrl_cases (w : Word) (s : State) :
    (w.getLsbD 0 = true ∧ writeCtrl w s = s.resetBlock) ∨
      (w.getLsbD 0 = false ∧ w.getLsbD 1 = true ∧ writeCtrl w s = s.clearError) ∨
      (w.getLsbD 0 = false ∧ w.getLsbD 1 = false ∧ writeCtrl w s = s) := by
  unfold writeCtrl
  cases w.getLsbD 0 <;> cases w.getLsbD 1 <;> simp

/-- Everything a host write can do: only CMD and CTRL have an effect. -/
theorem hostWrite_cases (r : WindowReg) (w : Word) (s : State) :
    (r = .cmd ∧ hostWrite r w s = offerCommand w s) ∨ (r = .ctrl ∧ hostWrite r w s = writeCtrl w s) ∨
      (r ≠ .cmd ∧ r ≠ .ctrl ∧ hostWrite r w s = s) := by
  cases r <;> simp [hostWrite]

end Sys2Proof.Machine
end

