-- ==== Sys2Proof/Laws/Exec.lean ====
section
/-! SUPPORT. Everything `exec` can do, said once: record an error of the command, or make one of the writes of 10_state.md
R19. Frames and whole-machine facts follow from this without unfolding a meaning. -/

namespace Sys2Proof.Machine

/-- The state a command may leave: an error recorded, or the command's own write. -/
inductive ExecResult (i : Instr) (s : State) : State → Prop where
  | error (c : ErrorCode) : ExecResult i s (s.raiseError c (encode i))
  | vector (d : VReg) (x : VecVal) (h : writesVec i = some d) : ExecResult i s (s.setV d (some x))
  | matrix (d : MReg) (A : MatVal) (h : writesMat i = some d) (hn : ∀ e a, i ≠ .inv e a) :
      ExecResult i s (s.setM d (some A))
  | result (a : VReg) (x : VecVal) (h : i = .rdv a) (hx : s.getV a = some x) :
      ExecResult i s (s.setResult (resultWord x))
  | inverse (d a : MReg) (A : MatVal) (h : i = .inv d a) (hA : s.getM a = some A) :
      ExecResult i s (s.setInverse d ((gaussJordan A).map fun X => ⟨A.dim, X⟩))

/-- A command's rule ends in an error recorded, or in whatever its body answers with. -/
theorem finish_result {i : Instr} {s t : State} {r : Except ErrorCode State} (h : finish i s r = .next t)
    (body : ∀ u, r = .ok u → ExecResult i s u) : ExecResult i s t := by
  rcases finish_next.1 h with h | ⟨c, _, rfl⟩
  · exact body _ h
  · exact .error c

/-- Every command answers with a next state. -/
theorem exec_next (i : Instr) (s : State) : ∃ t, exec i s = .next t := by
  have h : ∀ r, ∃ t, finish i s r = .next t := fun r => by cases r <;> exact ⟨_, rfl⟩
  cases i <;> exact h _

/-- The inversion of `exec`. -/
theorem exec_result {i : Instr} {s t : State} (h : exec i s = .next t) : ExecResult i s t := by
  cases i with
  | ldv d imm len =>
    refine finish_result h fun u hu => ?_
    cases h1 : requireSize len <;> simp [h1] at hu
    cases h2 : require (imm >>> len = 0#16) .dimMismatch <;> simp [h2] at hu
    exact hu ▸ .vector _ _ rfl
  | rdv a =>
    refine finish_result h fun u hu => ?_
    cases h1 : vecOperand s a <;> simp [h1] at hu
    exact hu ▸ .result _ _ rfl (vecOperand_ok.1 h1)
  | vxor d a b =>
    refine finish_result h fun u hu => ?_
    cases h1 : vecOperand s a <;> simp [h1] at hu
    cases h2 : vecOperand s b <;> simp [h2] at hu
    rename_i x y
    cases h3 : requireSameSize x.len y.len <;> simp [h3] at hu
    exact hu ▸ .vector _ _ rfl
  | vdot d a b =>
    refine finish_result h fun u hu => ?_
    cases h1 : vecOperand s a <;> simp [h1] at hu
    cases h2 : vecOperand s b <;> simp [h2] at hu
    rename_i x y
    cases h3 : requireSameSize x.len y.len <;> simp [h3] at hu
    exact hu ▸ .vector _ _ rfl
  | vmul d a b =>
    refine finish_result h fun u hu => ?_
    cases h1 : vecOperand s a <;> simp [h1] at hu
    cases h2 : matOperand s b <;> simp [h2] at hu
    rename_i x A
    cases h3 : requireSameSize x.len A.dim <;> simp [h3] at hu
    exact hu ▸ .vector _ _ rfl
  | ident d n =>
    refine finish_result h fun u hu => ?_
    cases h1 : requireSize n <;> simp [h1] at hu
    exact hu ▸ .matrix _ _ rfl (by simp)
  | mmov d a =>
    refine finish_result h fun u hu => ?_
    cases h1 : matOperand s a <;> simp [h1] at hu
    exact hu ▸ .matrix _ _ rfl (by simp)
  | mwr d i a =>
    refine finish_result h fun u hu => ?_
    cases h1 : vecOperand s a <;> simp [h1] at hu
    cases h2 : matOperand s d <;> simp [h2] at hu
    rename_i x A
    cases h3 : requireRow A i <;> simp [h3] at hu
    cases h4 : requireSameSize x.len A.dim <;> simp [h4] at hu
    exact hu ▸ .matrix _ _ rfl (by simp)
  | mrd d a i =>
    refine finish_result h fun u hu => ?_
    cases h1 : matOperand s a <;> simp [h1] at hu
    rename_i A
    cases h2 : requireRow A i <;> simp [h2] at hu
    exact hu ▸ .vector _ _ rfl
  | swapr d i j =>
    refine finish_result h fun u hu => ?_
    cases h1 : matOperand s d <;> simp [h1] at hu
    rename_i A
    cases h2 : requireRow A i <;> simp [h2] at hu
    cases h3 : requireRow A j <;> simp [h3] at hu
    exact hu ▸ .matrix _ _ rfl (by simp)
  | xorr d i j =>
    refine finish_result h fun u hu => ?_
    cases h1 : matOperand s d <;> simp [h1] at hu
    rename_i A
    cases h2 : requireRow A i <;> simp [h2] at hu
    cases h3 : requireRow A j <;> simp [h3] at hu
    exact hu ▸ .matrix _ _ rfl (by simp)
  | inv d a =>
    refine finish_result h fun u hu => ?_
    cases h1 : matOperand s a <;> simp [h1] at hu
    exact hu ▸ .inverse _ _ _ rfl (matOperand_ok.1 h1)

end Sys2Proof.Machine
end

