-- ==== Sys2Proof/Laws/Gf2.lean ====
section
/-! SUPPORT. What the row operations and products of Gf2.lean do, row by row. -/

namespace Sys2Proof.Machine

variable (R : Rows)

theorem rowOf_eq_getElem {r : Nat} (h : r < 16) : rowOf R r = R[r] := by
  simp [rowOf, h]

/-- A row number above 15 names no row. -/
theorem rowOf_of_ge {r : Nat} (h : 16 ≤ r) : rowOf R r = 0#16 := by
  have : R[r]? = none := Vector.getElem?_eq_none (by omega)
  simp [rowOf, this]

/-- Rows are equal when each of the 16 is. -/
theorem rows_ext {R Q : Rows} (h : ∀ r, r < 16 → rowOf R r = rowOf Q r) : R = Q := by
  apply Vector.ext
  intro r hr
  have := h r hr
  rwa [rowOf_eq_getElem R hr, rowOf_eq_getElem Q hr] at this

theorem rowOf_setRow {r q : Nat} (v : Row) (h : r < 16) :
    rowOf (setRow R r v) q = if q = r then v else rowOf R q := by
  by_cases hq : q < 16
  · rw [rowOf_eq_getElem _ hq, rowOf_eq_getElem _ hq, setRow, Vector.getElem_setIfInBounds]
    simp [eq_comm]
  · rw [rowOf_of_ge _ (by omega), rowOf_of_ge _ (by omega), if_neg (by omega)]

/-- Everything a row swap does. -/
theorem rowOf_swapRows {i j q : Nat} (hi : i < 16) (hj : j < 16) :
    rowOf (swapRows R i j) q = if q = j then rowOf R i else if q = i then rowOf R j else rowOf R q := by
  rw [swapRows, rowOf_setRow _ _ hj, rowOf_setRow _ _ hi]

/-- Everything a row XOR does. -/
theorem rowOf_xorRow {i j q : Nat} (hi : i < 16) :
    rowOf (xorRow R i j) q = if q = i then rowOf R i ^^^ rowOf R j else rowOf R q := by
  rw [xorRow, rowOf_setRow _ _ hi]

theorem rowOf_identityRows {n r : Nat} (h : r < 16) :
    rowOf (identityRows n) r = if r < n then 1#16 <<< r else 0#16 := by
  rw [rowOf_eq_getElem _ h, identityRows, Vector.getElem_ofFn]

/-- Row r of a product is row r of the left factor times the right one. -/
theorem rowOf_mul (A B : MatVal) {r : Nat} (h : r < 16) :
    rowOf (A.mul B).rows r = rowTimes (rowOf A.rows r) B.rows B.dim := by
  rw [rowOf_eq_getElem _ h, MatVal.mul, Vector.getElem_ofFn]

@[simp] theorem rowTimes_zero_dim (x : Row) : rowTimes x R 0 = 0#16 := rfl

/-- The product, one row at a time. -/
theorem rowTimes_succ (x : Row) (n : Nat) :
    rowTimes x R (n + 1) = if x.getLsbD n then rowTimes x R n ^^^ rowOf R n else rowTimes x R n := by
  simp [rowTimes, List.range_succ, List.foldl_append]

/-- The zero vector gives the zero vector. -/
@[simp] theorem rowTimes_zero (n : Nat) : rowTimes 0#16 R n = 0#16 := by
  induction n with
  | zero => rfl
  | succ n ih => simp [rowTimes_succ, ih]

/-- The product is linear in the vector. -/
theorem rowTimes_xor (x y : Row) (n : Nat) : rowTimes (x ^^^ y) R n = rowTimes x R n ^^^ rowTimes y R n := by
  induction n with
  | zero => simp
  | succ n ih =>
    simp only [rowTimes_succ, BitVec.getLsbD_xor, ih]
    apply BitVec.eq_of_getLsbD_eq
    intro k _
    cases x.getLsbD n <;> cases y.getLsbD n <;> simp [Bool.xor_left_comm, Bool.xor_comm]

/-- The product by A, then by B, is the product by `A.mul B`, over any number of the vector's first elements. -/
theorem rowTimes_mul (x : Row) (A B : MatVal) (n : Nat) :
    rowTimes (rowTimes x A.rows n) B.rows B.dim = rowTimes x (A.mul B).rows n := by
  induction n with
  | zero => simp
  | succ n ih =>
    rw [rowTimes_succ, rowTimes_succ]
    by_cases h : x.getLsbD n = true
    · have hn : n < 16 := by
        by_contra hn
        simp [BitVec.getLsbD_of_ge _ _ (Nat.le_of_not_lt hn)] at h
      rw [if_pos h, if_pos h, rowTimes_xor, ih, rowOf_mul _ _ hn]
    · rw [if_neg h, if_neg h, ih]

@[simp] theorem MatVal.mul_dim (A B : MatVal) : (A.mul B).dim = A.dim := rfl
@[simp] theorem MatVal.identity_dim (n : Nat) : (MatVal.identity n).dim = n := rfl
@[simp] theorem MatVal.identity_rows (n : Nat) : (MatVal.identity n).rows = identityRows n := rfl

/-- A word has only zeros from bit n up exactly when each of those bits is 0. -/
theorem shiftRight_eq_zero_iff (x : Row) (n : Nat) : x >>> n = 0#16 ↔ ∀ k, n ≤ k → x.getLsbD k = false := by
  constructor
  · intro h k hk
    have := congrArg (fun y => y.getLsbD (k - n)) h
    simpa [BitVec.getLsbD_ushiftRight, Nat.add_sub_cancel' hk] using this
  · intro h
    apply BitVec.eq_of_getLsbD_eq
    intro k _
    simpa [BitVec.getLsbD_ushiftRight] using h (n + k) (by omega)

/-! ### The operations keep legal values legal (00_scope.md R10) -/

/-- A row of a legal matrix has no bit at or above dim. -/
theorem MatVal.wf.row_fits {A : MatVal} (h : A.wf) (r : Nat) : rowOf A.rows r >>> A.dim = 0#16 := by
  by_cases hr : r < 16
  · have := h.2 ⟨r, hr⟩
    by_cases hd : r < A.dim
    · simpa [hd] using this
    · have hz : rowOf A.rows r = 0#16 := by simpa [hd] using this
      simp [hz]
  · simp [rowOf_of_ge A.rows (by omega : 16 ≤ r)]

/-- Bits below n stay the only ones under XOR. -/
theorem xor_fits {x y : Row} {n : Nat} (hx : x >>> n = 0#16) (hy : y >>> n = 0#16) : (x ^^^ y) >>> n = 0#16 := by
  rw [BitVec.ushiftRight_xor_distrib, hx, hy]
  rfl

theorem identity_wf {n : Nat} (h : legalSize n) : (MatVal.identity n).wf := by
  refine ⟨h, fun r => ?_⟩
  rw [MatVal.identity_rows, MatVal.identity_dim, rowOf_identityRows r.isLt]
  by_cases hr : r.val < n
  · simp only [hr, if_true]
    rw [shiftRight_eq_zero_iff]
    intro k hk
    simp [BitVec.getLsbD_shiftLeft, BitVec.getLsbD_one]
    omega
  · simp [hr]

/-- Writing a fitting row below dim keeps a matrix legal. -/
theorem setRow_wf {A : MatVal} (h : A.wf) {i : Nat} {v : Row} (hi : i < A.dim) (hv : v >>> A.dim = 0#16) :
    (MatVal.mk A.dim (setRow A.rows i v)).wf := by
  refine ⟨h.1, fun r => ?_⟩
  have hn : A.dim ≤ 16 := h.1.2
  have hr := h.2 r
  simp only
  rw [rowOf_setRow _ _ (by omega)]
  by_cases e : r.val = i
  · simp [e, hi, hv]
  · simpa [e] using hr

theorem swapRows_wf {A : MatVal} (h : A.wf) {i j : Nat} (hi : i < A.dim) (hj : j < A.dim) :
    (MatVal.mk A.dim (swapRows A.rows i j)).wf :=
  setRow_wf (A := ⟨A.dim, setRow A.rows i (rowOf A.rows j)⟩) (setRow_wf h hi (h.row_fits j)) hj (h.row_fits i)

theorem xorRow_wf {A : MatVal} (h : A.wf) {i j : Nat} (hi : i < A.dim) :
    (MatVal.mk A.dim (xorRow A.rows i j)).wf :=
  setRow_wf h hi (xor_fits (h.row_fits i) (h.row_fits j))

/-- A product of a vector and a legal matrix has no bit at or above dim. -/
theorem rowTimes_fits {A : MatVal} (h : A.wf) (x : Row) (n : Nat) : rowTimes x A.rows n >>> A.dim = 0#16 := by
  induction n with
  | zero => simp
  | succ n ih =>
    rw [rowTimes_succ]
    split
    · exact xor_fits ih (h.row_fits n)
    · exact ih

end Sys2Proof.Machine
end

