-- ==== Sys2Proof/Laws/PerInstr.lean ====
section
/-! SUPPORT. The family EncodingFitsRow: the word of a well-formed command is one of its own row of the opcode map, every
reserved bit zero (30_encoding.md R62, R64). -/

namespace Sys2Proof.Laws.EncodingFitsRow

/-- (encode i and mask) = match for the row of i. -/
def Statement (i : Instr) : Prop := i.wellFormed → encode i &&& i.row.mask = i.row.pattern

/-- A number below 2^k has no bit from k up. -/
theorem high_bit {x n k : Nat} (h : x < 2 ^ n) (hk : n ≤ k) : x.testBit k = false :=
  Nat.testBit_lt_two_pow (lt_of_lt_of_le h (Nat.pow_le_pow_right (by decide) hk))

theorem reg_bit (d : Fin 8) {k : Nat} (hk : 3 ≤ k) : d.val.testBit k = false := high_bit (n := 3) d.isLt hk

theorem ldv (d : VReg) (imm : Row) (len : Nat) : Statement (.ldv d imm len) := by
  intro h
  have hw : len < 2 ^ 5 := by simpa [Instr.wellFormed, fitsL] using h
  apply BitVec.eq_of_getLsbD_eq
  intro k hk
  simp only [encode, formatI, Instr.row, rowLdv, BitVec.getLsbD_and, BitVec.getLsbD_or, BitVec.getLsbD_shiftLeft,
    BitVec.getLsbD_ofNat, BitVec.getLsbD_setWidth]
  interval_cases k <;> simp [reg_bit, high_bit hw] <;> decide

theorem rdv (a : VReg) : Statement (.rdv a) := by
  intro h
  apply BitVec.eq_of_getLsbD_eq
  intro k hk
  simp only [encode, formatR, Instr.row, rowRdv, BitVec.getLsbD_and, BitVec.getLsbD_or, BitVec.getLsbD_shiftLeft,
    BitVec.getLsbD_ofNat]
  interval_cases k <;> simp [reg_bit] <;> decide

theorem vxor (d a b : VReg) : Statement (.vxor d a b) := by
  intro h
  apply BitVec.eq_of_getLsbD_eq
  intro k hk
  simp only [encode, formatR, Instr.row, rowVxor, BitVec.getLsbD_and, BitVec.getLsbD_or, BitVec.getLsbD_shiftLeft,
    BitVec.getLsbD_ofNat]
  interval_cases k <;> simp [reg_bit] <;> decide

theorem vdot (d a b : VReg) : Statement (.vdot d a b) := by
  intro h
  apply BitVec.eq_of_getLsbD_eq
  intro k hk
  simp only [encode, formatR, Instr.row, rowVdot, BitVec.getLsbD_and, BitVec.getLsbD_or, BitVec.getLsbD_shiftLeft,
    BitVec.getLsbD_ofNat]
  interval_cases k <;> simp [reg_bit] <;> decide

theorem vmul (d a : VReg) (b : MReg) : Statement (.vmul d a b) := by
  intro h
  apply BitVec.eq_of_getLsbD_eq
  intro k hk
  simp only [encode, formatR, Instr.row, rowVmul, BitVec.getLsbD_and, BitVec.getLsbD_or, BitVec.getLsbD_shiftLeft,
    BitVec.getLsbD_ofNat]
  interval_cases k <;> simp [reg_bit] <;> decide

theorem ident (d : MReg) (dim : Nat) : Statement (.ident d dim) := by
  intro h
  have hw : dim < 2 ^ 5 := by simpa [Instr.wellFormed, fitsL] using h
  apply BitVec.eq_of_getLsbD_eq
  intro k hk
  simp only [encode, formatI, Instr.row, rowIdent, BitVec.getLsbD_and, BitVec.getLsbD_or, BitVec.getLsbD_shiftLeft,
    BitVec.getLsbD_ofNat, BitVec.getLsbD_setWidth]
  interval_cases k <;> simp [reg_bit, high_bit hw] <;> decide

theorem mmov (d a : MReg) : Statement (.mmov d a) := by
  intro h
  apply BitVec.eq_of_getLsbD_eq
  intro k hk
  simp only [encode, formatR, Instr.row, rowMmov, BitVec.getLsbD_and, BitVec.getLsbD_or, BitVec.getLsbD_shiftLeft,
    BitVec.getLsbD_ofNat]
  interval_cases k <;> simp [reg_bit] <;> decide

theorem mwr (d : MReg) (i : Nat) (a : VReg) : Statement (.mwr d i a) := by
  intro h
  have hw : i < 2 ^ 4 := by simpa [Instr.wellFormed, fitsRow] using h
  apply BitVec.eq_of_getLsbD_eq
  intro k hk
  simp only [encode, formatX, Instr.row, rowMwr, BitVec.getLsbD_and, BitVec.getLsbD_or, BitVec.getLsbD_shiftLeft,
    BitVec.getLsbD_ofNat]
  interval_cases k <;> simp [reg_bit, high_bit hw] <;> decide

theorem mrd (d : VReg) (a : MReg) (i : Nat) : Statement (.mrd d a i) := by
  intro h
  have hw : i < 2 ^ 4 := by simpa [Instr.wellFormed, fitsRow] using h
  apply BitVec.eq_of_getLsbD_eq
  intro k hk
  simp only [encode, formatX, Instr.row, rowMrd, BitVec.getLsbD_and, BitVec.getLsbD_or, BitVec.getLsbD_shiftLeft,
    BitVec.getLsbD_ofNat]
  interval_cases k <;> simp [reg_bit, high_bit hw] <;> decide

theorem swapr (d : MReg) (i j : Nat) : Statement (.swapr d i j) := by
  intro h
  obtain ⟨hi, hj⟩ : i < 2 ^ 4 ∧ j < 2 ^ 4 := by simpa [Instr.wellFormed, fitsRow] using h
  apply BitVec.eq_of_getLsbD_eq
  intro k hk
  simp only [encode, formatX, Instr.row, rowSwapr, BitVec.getLsbD_and, BitVec.getLsbD_or, BitVec.getLsbD_shiftLeft,
    BitVec.getLsbD_ofNat]
  interval_cases k <;> simp [reg_bit, high_bit hi, high_bit hj] <;> decide

theorem xorr (d : MReg) (i j : Nat) : Statement (.xorr d i j) := by
  intro h
  obtain ⟨hi, hj⟩ : i < 2 ^ 4 ∧ j < 2 ^ 4 := by simpa [Instr.wellFormed, fitsRow] using h
  apply BitVec.eq_of_getLsbD_eq
  intro k hk
  simp only [encode, formatX, Instr.row, rowXorr, BitVec.getLsbD_and, BitVec.getLsbD_or, BitVec.getLsbD_shiftLeft,
    BitVec.getLsbD_ofNat]
  interval_cases k <;> simp [reg_bit, high_bit hi, high_bit hj] <;> decide

theorem inv (d a : MReg) : Statement (.inv d a) := by
  intro h
  apply BitVec.eq_of_getLsbD_eq
  intro k hk
  simp only [encode, formatR, Instr.row, rowInv, BitVec.getLsbD_and, BitVec.getLsbD_or, BitVec.getLsbD_shiftLeft,
    BitVec.getLsbD_ofNat]
  interval_cases k <;> simp [reg_bit] <;> decide

end Sys2Proof.Laws.EncodingFitsRow
end

