-- ==== Sys2Proof/Laws/Step.lean ====
section
/-! SUPPORT. The step, by what stands first on the agenda, and the block's step, by what is pending. -/

namespace Sys2Proof.Machine

variable {s t : State}

theorem step_nil (h : s.agenda = []) : step s = blockStep s := by simp [step, h]

theorem step_blockTurn {es : List Event} (h : s.agenda = .blockTurn :: es) : step s = blockStep (s.withAgenda es) := by
  simp [step, h]

theorem step_access {a : Access} {es : List Event} (h : s.agenda = .access a :: es) :
    step s = hostAccess a (s.withAgenda es) := by simp [step, h]

theorem step_rst {during : Option Access} {es : List Event} (h : s.agenda = .rst during :: es) :
    step s = .next (hardwareReset during (s.withAgenda es)) := by simp [step, h]

theorem blockStep_none (h : s.pending = none) : blockStep s = .next s := by simp [blockStep, h]

theorem blockStep_some {w : Word} (h : s.pending = some w) : blockStep s = executeWord w s := by simp [blockStep, h]

theorem executeWord_ok {w : Word} {i : Instr} (h : decode w = .ok i) : executeWord w s = retireOutcome (exec i s) := by
  simp [executeWord, h]

theorem executeWord_error {w : Word} {e : Reject} (h : decode w = .error e) :
    executeWord w s = .next (s.raiseError .illegalCmd w).retire := by simp [executeWord, h]

/-- Everything a supported access can do, and the only refusal. -/
theorem hostAccess_cases (a : Access) (s : State) :
    (a.supported = false ∧ hostAccess a s = .refused (.unsupportedAccess a)) ∨
      (∃ off, a = .read off 4 ∧ hostAccess a s = .next (hostRead (windowReg off) s)) ∨
      (∃ off w, a = .write off 4 w ∧ hostAccess a s = .next (hostWrite (windowReg off) w s)) := by
  by_cases h : a.supported = true
  · right
    cases a with
    | read off n =>
      have hn : n = 4 := by simpa using (by simpa [Access.supported] using h : n = 4 ∧ _).1
      subst hn
      exact .inl ⟨off, rfl, by simp [hostAccess, h]⟩
    | write off n w =>
      have hn : n = 4 := by simpa using (by simpa [Access.supported] using h : n = 4 ∧ _).1
      subst hn
      exact .inr ⟨off, w, rfl, by simp [hostAccess, h]⟩
  · exact .inl ⟨by simpa using h, by simp [hostAccess, h]⟩

end Sys2Proof.Machine
end

