-- ==== Sys2Proof/Machine/Assembly.lean ====
section
/-! DEFINITION. Assembly syntax (30_encoding.md R68), with the pseudo-instructions of R69, and disassembly (R72). Not
part of the machine (92_eei_decisions.md D28); no rule of the machine depends on it. -/

namespace Sys2Proof.Machine

/-- An operand of an assembly line (R68): a vector register, a matrix register, or a number. -/
inductive AsmOperand where
  | v (r : VReg)
  | m (r : MReg)
  | num (n : Nat)
  deriving DecidableEq, Repr

/-- One line: a mnemonic, then operands (R68). -/
structure AsmLine where
  mnemonic : String
  operands : List AsmOperand
  deriving DecidableEq, Repr

/-- The line of a command, operands in the order of R68. -/
def asmOf (i : Instr) : AsmLine :=
  ⟨i.row.mnemonic, match i with
    | .ldv d imm len => [.v d, .num imm.toNat, .num len]
    | .rdv a => [.v a]
    | .vxor d a b => [.v d, .v a, .v b]
    | .vdot d a b => [.v d, .v a, .v b]
    | .vmul d a b => [.v d, .v a, .m b]
    | .ident d dim => [.m d, .num dim]
    | .mmov d a => [.m d, .m a]
    | .mwr d i a => [.m d, .num i, .v a]
    | .mrd d a i => [.v d, .m a, .num i]
    | .swapr d i j => [.m d, .num i, .num j]
    | .xorr d i j => [.m d, .num i, .num j]
    | .inv d a => [.m d, .m a]⟩

/-- LDV from numbers; the immediate must fit 16 bits. -/
def asmLdv (d : VReg) (n len : Nat) : Option Instr :=
  if n < 65536 then some (.ldv d (BitVec.ofNat 16 n) len) else none

/-- The command a line may stand for, before its operands are checked to fit. -/
def assembleRaw (l : AsmLine) : Option Instr :=
  match l.mnemonic, l.operands with
  | "LDV", [.v d, .num n, .num len] => asmLdv d n len
  | "RDV", [.v a] => some (.rdv a)
  | "VXOR", [.v d, .v a, .v b] => some (.vxor d a b)
  | "VDOT", [.v d, .v a, .v b] => some (.vdot d a b)
  | "VMUL", [.v d, .v a, .m b] => some (.vmul d a b)
  | "IDENT", [.m d, .num n] => some (.ident d n)
  | "MMOV", [.m d, .m a] => some (.mmov d a)
  | "MWR", [.m d, .num i, .v a] => some (.mwr d i a)
  | "MRD", [.v d, .m a, .num i] => some (.mrd d a i)
  | "SWAPR", [.m d, .num i, .num j] => some (.swapr d i j)
  | "XORR", [.m d, .num i, .num j] => some (.xorr d i j)
  | "INV", [.m d, .m a] => some (.inv d a)
  | "VZERO", [.v d, .num len] => some (vzero d len)
  | "VBASIS", [.v d, .num k, .num len] => vbasis d k len
  | _, _ => none

/-- The command of a line; an operand that does not fit its field is rejected (R68). -/
def assemble (l : AsmLine) : Option Instr := (assembleRaw l).filter Instr.wellFormed

/-! ### Text -/

/-- The value of a digit character in a base up to 16; hex digits of either case (DESIGN CHOICE, log entry 14). -/
def digitValue (base : Nat) (c : Char) : Option Nat :=
  let n := if '0' ≤ c ∧ c ≤ '9' then some (c.toNat - '0'.toNat)
    else if 'a' ≤ c ∧ c ≤ 'f' then some (c.toNat - 'a'.toNat + 10)
    else if 'A' ≤ c ∧ c ≤ 'F' then some (c.toNat - 'A'.toNat + 10)
    else none
  n.filter (· < base)

/-- A nonempty run of digits, most significant first; leading zeros are allowed (DESIGN CHOICE, log entry 14). -/
def parseDigits (base : Nat) (cs : List Char) : Option Nat :=
  if cs.isEmpty then none else cs.foldlM (fun n c => (digitValue base c).map fun d => n * base + d) 0

/-- A number: decimal, 0x hex, or 0b binary (R68). -/
def parseNumber : List Char → Option Nat
  | '0' :: 'x' :: cs => parseDigits 16 cs
  | '0' :: 'b' :: cs => parseDigits 2 cs
  | cs => parseDigits 10 cs

/-- The register number after v or m: one digit 0 to 7 (R68). -/
def parseReg : List Char → Option (Fin 8)
  | [c] => (digitValue 8 c).map (Fin.ofNat 8)
  | _ => none

/-- One operand (R68). -/
def parseOperand : List Char → Option AsmOperand
  | 'v' :: cs => (parseReg cs).map .v
  | 'm' :: cs => (parseReg cs).map .m
  | cs => (parseNumber cs).map .num

/-- One line: the mnemonic, a space, the operands separated by commas (R68). DESIGN CHOICE (log entry 14): R68 is silent on
spaces, and every space after the mnemonic is deleted, around an operand and INSIDE one (`1 4` is 14, `v 0` is v0). -/
def parseLine (cs : List Char) : Option AsmLine :=
  let name := cs.takeWhile (· != ' ')
  let args := ((cs.drop name.length).filter (· != ' ')).splitOn ','
  (args.mapM parseOperand).map fun ops => ⟨String.ofList name, ops⟩

/-- The word of a line of text (R68, R71). -/
def assembleText (cs : List Char) : Option Word := ((parseLine cs).bind assemble).map encode

/-- An operand as text; numbers in decimal (log entry 14). -/
def operandText : AsmOperand → String
  | .v r => "v" ++ String.ofList (Nat.toDigits 10 r.val)
  | .m r => "m" ++ String.ofList (Nat.toDigits 10 r.val)
  | .num n => String.ofList (Nat.toDigits 10 n)

/-- A line as text, `, ` between operands (DESIGN CHOICE, log entry 14). -/
def lineText (l : AsmLine) : String := l.mnemonic ++ " " ++ ", ".intercalate (l.operands.map operandText)

/-- The eight hex digits of a word, lower case (DESIGN CHOICE, log entry 14). -/
def hexDigits (w : Word) : List Char :=
  let ds := Nat.toDigits 16 w.toNat
  List.replicate (8 - ds.length) '0' ++ ds

/-- A disassembled word: the line of its command, or .word 0x<8 hex digits> for an illegal word (R72). -/
def disassemble (w : Word) : String :=
  match decode w with
  | .ok i => lineText (asmOf i)
  | .error _ => ".word 0x" ++ String.ofList (hexDigits w)

end Sys2Proof.Machine
end

