-- ==== Sys2Proof/Tests/Slice0.lean ====
section
/-! SUPPORT. Tests of the model, expected results taken from the spec (95_test_vectors.md and the rules' examples, named at
each test), and one witness for each clause of a statement that has hypotheses. -/

namespace Sys2Proof.Tests

open Sys2Proof.Machine

/-! ### Helpers -/

/-- The outcome is a next state with property p. -/
def nextHas (o : Host.Outcome State Fault Refusal) (p : State → Bool) : Bool :=
  match o with
  | .next t => p t
  | .fault _ => false
  | .refused _ => false

/-- The outcome is a refusal. -/
def isRefused (o : Host.Outcome State Fault Refusal) : Bool :=
  match o with
  | .next _ => false
  | .fault _ => false
  | .refused _ => true

/-- A matrix from its first rows, the others zero. -/
def mat (n : Nat) (rows : List Row) : MatVal := ⟨n, Vector.ofFn fun r => rows.getD r.val 0⟩

/-- Reset with one vector register set. -/
def oneV (r : VReg) (n : Nat) (x : Row) : State := State.reset.setV r (some ⟨n, x⟩)
/-- Reset with one matrix register set. -/
def oneM (r : MReg) (n : Nat) (rows : List Row) : State := State.reset.setM r (some (mat n rows))

/-- The invertible matrix of T-VMUL-1 and T-INV-1, and the singular one of T-INV-2. -/
def matA : MatVal := mat 3 [0b110, 0b011, 0b100]
def matS : MatVal := mat 3 [0b011, 0b110, 0b101]
/-- The inverse of matA (T-INV-1). -/
def matX : MatVal := mat 3 [0b111, 0b101, 0b100]

/-- v0 = Vec(3, 0b110), v1 = Vec(3, 0b011), v3 = Vec(4, 0b0110), m0 singular, m1 invertible. -/
def base : State :=
  ((((oneV 0 3 0b110).setV 1 (some ⟨3, 0b011⟩)).setV 3 (some ⟨4, 0b0110⟩)).setM 0 (some matS)).setM 1 (some matA)

/-- base with a word pending and the block's turn next. -/
def pendingBase (w : Word) : State := base.latch w
/-- base with one event on the agenda. -/
def offered (e : Event) : State := base.withAgenda [e]

/-! ### WellFormed refuses each ill-formed operand (30_encoding.md R60, R61, R68) -/

theorem test_wf_ldv_len : (Instr.ldv 0 0 32).wellFormed = false := by decide
theorem test_wf_ident_dim : (Instr.ident 0 32).wellFormed = false := by decide
theorem test_wf_mwr_row : (Instr.mwr 0 16 0).wellFormed = false := by decide
theorem test_wf_mrd_row : (Instr.mrd 0 0 16).wellFormed = false := by decide
theorem test_wf_swapr_i : (Instr.swapr 0 16 0).wellFormed = false := by decide
theorem test_wf_swapr_j : (Instr.swapr 0 0 16).wellFormed = false := by decide
theorem test_wf_xorr_i : (Instr.xorr 0 16 0).wellFormed = false := by decide
theorem test_wf_xorr_j : (Instr.xorr 0 0 16).wellFormed = false := by decide
theorem test_wf_limits : (Instr.ldv 7 0xFFFF 31).wellFormed ∧ (Instr.xorr 7 15 15).wellFormed := by decide

/-! ### Decoding: words written out field by field from 30_encoding.md R58 to R62 -/

theorem test_decode_ldv : decode 0b000001_001_00_00011_0000000000000101#32 = .ok (.ldv 1 5 3) := by decide
theorem test_decode_rdv : decode 0b000010_000_101_000_00000000000000000#32 = .ok (.rdv 5) := by decide
theorem test_decode_vxor : decode 0b000011_010_110_001_00000000000000000#32 = .ok (.vxor 2 6 1) := by decide
theorem test_decode_vdot : decode 0b000100_111_000_011_00000000000000000#32 = .ok (.vdot 7 0 3) := by decide
theorem test_decode_vmul : decode 0b000101_100_010_111_00000000000000000#32 = .ok (.vmul 4 2 7) := by decide
theorem test_decode_ident : decode 0b001000_111_00_10000_0000000000000000#32 = .ok (.ident 7 16) := by decide
theorem test_decode_mmov : decode 0b001001_001_110_000_00000000000000000#32 = .ok (.mmov 1 6) := by decide
theorem test_decode_mwr : decode 0b001010_011_101_000000000000_1110_0000#32 = .ok (.mwr 3 14 5) := by decide
theorem test_decode_mrd : decode 0b001011_100_001_000000000000_0010_0000#32 = .ok (.mrd 4 1 2) := by decide
theorem test_decode_swapr : decode 0b001100_110_000_000000000000_0101_1010#32 = .ok (.swapr 6 5 10) := by decide
theorem test_decode_xorr : decode 0b001101_010_000_000000000000_1111_0001#32 = .ok (.xorr 2 15 1) := by decide
theorem test_decode_inv : decode 0b001110_001_000_000_00000000000000000#32 = .ok (.inv 1 0) := by decide

/-- T-ERR-1, T-ERR-2, T-VXOR-7, T-XORR-4: illegal words, by name. -/
theorem test_decode_rejects :
    decode 0x00000000 = .error (.unassignedOpcode 0) ∧ decode 0x3C000000 = .error (.unassignedOpcode 0x0F) ∧
    decode 0x0D020001 = .error (.reservedBits 0x0D020001) ∧ decode 0x34100001 = .error (.reservedBits 0x34100001) := by
  decide
/-- T-ERR-14: 0x0F000000 is VXOR v6, v0, v0. -/
theorem test_decode_fields_not_bytes : decode 0x0F000000 = .ok (.vxor 6 0 0) := by decide
/-- 20_memory.md R44: byte 0 carries bits 7:0; the bytes of 0x04830005. -/
theorem test_decode_bytes : decodeBytes [0x05, 0x00, 0x83, 0x04, 0xAA] = .ok (.ldv 1 5 3, [0xAA]) := by decide
/-- No two rows of the opcode map overlap: their opcodes differ (30_encoding.md R67). -/
theorem test_rows_disjoint : opcodeTable.Pairwise fun r q => r.op ≠ q.op := by decide
/-- 30_encoding.md R71's example. -/
theorem test_encode_example : encode (.vxor 2 0 1) = 0x0D020000 := by decide
/-- 30_encoding.md R69 and R68: the pseudo-instructions' expansions; numbers in hex and binary. -/
theorem test_assemble_pseudo :
    assemble ⟨"VBASIS", [.v 1, .num 2, .num 3]⟩ = some (.ldv 1 4 3) ∧
    assemble ⟨"VZERO", [.v 1, .num 3]⟩ = some (.ldv 1 0 3) ∧ assemble ⟨"SWAPR", [.m 0, .num 16, .num 0]⟩ = none := by
  decide
/-- P2 step 1 and 95_test_vectors.md P1 step 2, from text (30_encoding.md R68). -/
theorem test_assemble_text : assembleText "LDV v0, 0b110, 3".toList = some 0x04030006 := by decide
/-- 30_encoding.md R72. -/
theorem test_disassemble :
    disassemble 0x28300020 = "MWR m0, 2, v3" ∧ disassemble 0x0D020001 = ".word 0x0d020001" := by decide

/-! ### Commands: one step each, expected results from 95_test_vectors.md -/

/-- T-LDV-4 and T-LDV-7. -/
theorem test_ldv_full : nextHas (exec (.ldv 2 0xFFFF 16) State.reset) fun t => t.getV 2 == some ⟨16, 0xFFFF⟩ := by decide
theorem test_ldv_too_wide : nextHas (exec (.ldv 1 8 3) State.reset)
    fun t => t.getV 1 == none && t.err == 1 && t.errcmd == 0x04830008 := by decide
/-- T-LDV-4 (RDV) and T-RDV-1. -/
theorem test_rdv : nextHas (exec (.rdv 2) (oneV 2 16 0xFFFF)) fun t => t.result == 0x0010FFFF := by decide
theorem test_rdv_empty : nextHas (exec (.rdv 5) State.reset) fun t => t.err == 2 && t.errcmd == 0x08500000 := by decide
/-- T-VXOR-1 and T-VXOR-4. -/
theorem test_vxor : nextHas (exec (.vxor 2 0 1) base) fun t => t.getV 2 == some ⟨3, 0b101⟩ := by decide
theorem test_vxor_mismatch : nextHas (exec (.vxor 2 0 3) base) fun t => t.getV 2 == none && t.err == 1 := by decide
/-- T-VDOT-2 and T-VDOT-4. -/
theorem test_vdot : nextHas (exec (.vdot 2 0 1) ((oneV 0 3 0b111).setV 1 (some ⟨3, 0b001⟩)))
    fun t => t.getV 2 == some ⟨1, 1⟩ := by decide
theorem test_vdot_self : nextHas (exec (.vdot 3 0 0) (oneV 0 5 0b10101)) fun t => t.getV 3 == some ⟨1, 1⟩ := by decide
/-- T-VMUL-1 and T-VMUL-4 (destination = source). -/
theorem test_vmul : nextHas (exec (.vmul 2 1 1) base) fun t => t.getV 2 == some ⟨3, 0b101⟩ := by decide
theorem test_vmul_alias : nextHas (exec (.vmul 0 0 1) (base.setV 0 (some ⟨3, 0b111⟩)))
    fun t => t.getV 0 == some ⟨3, 0b001⟩ := by decide
/-- T-IDENT-1 and T-IDENT-5. -/
theorem test_ident : nextHas (exec (.ident 0 3) State.reset) fun t => t.getM 0 == some (mat 3 [1, 2, 4]) := by decide
theorem test_ident_range : nextHas (exec (.ident 0 17) State.reset)
    fun t => t.getM 0 == none && t.err == 4 && t.errcmd == 0x20110000 := by decide
/-- T-MMOV-1. -/
theorem test_mmov : nextHas (exec (.mmov 2 1) base) fun t => t.getM 2 == some matA && t.getM 1 == some matA := by decide
/-- T-MWR-1 and T-ERR-11 (RANGE wins over DIM_MISMATCH). -/
theorem test_mwr : nextHas (exec (.mwr 0 2 3) ((oneM 0 3 [1, 2, 4]).setV 3 (some ⟨3, 0b110⟩)))
    fun t => t.getM 0 == some (mat 3 [0b001, 0b010, 0b110]) := by decide
theorem test_mwr_priority : nextHas (exec (.mwr 0 5 3) base) fun t => t.err == 4 && t.errcmd == 0x28300050 := by decide
/-- T-MRD-1 and T-MRD-2. -/
theorem test_mrd : nextHas (exec (.mrd 4 0 2) (oneM 0 3 [1, 2, 0b110])) fun t => t.getV 4 == some ⟨3, 0b110⟩ := by decide
theorem test_mrd_range : nextHas (exec (.mrd 4 0 3) (oneM 0 3 [1, 2, 0b110]))
    fun t => t.getV 4 == none && t.err == 4 && t.errcmd == 0x2E000030 := by decide
/-- T-SWAPR-1. -/
theorem test_swapr : nextHas (exec (.swapr 0 0 2) (oneM 0 3 [1, 2, 0b110]))
    fun t => t.getM 0 == some (mat 3 [0b110, 0b010, 0b001]) := by decide
/-- T-XORR-1 and T-XORR-2 (i = j). -/
theorem test_xorr : nextHas (exec (.xorr 0 0 1) (oneM 0 3 [0b110, 0b010, 0b001]))
    fun t => t.getM 0 == some (mat 3 [0b100, 0b010, 0b001]) := by decide
theorem test_xorr_self : nextHas (exec (.xorr 0 2 2) (oneM 0 3 [0b110, 0b010, 0b001]))
    fun t => t.getM 0 == some (mat 3 [0b110, 0b010, 0b000]) := by decide
/-- T-INV-1 and T-INV-11 (destination = source, singular). -/
theorem test_inv : nextHas (exec (.inv 2 1) base) fun t => t.getM 2 == some matX && !t.ni := by decide
theorem test_inv_singular : nextHas (exec (.inv 0 0) base) fun t => t.getM 0 == none && t.ni && t.err == 0 := by decide
/-- T-INV-15: a 16 by 16 inverse. -/
theorem test_inv_16 :
    gaussJordan (mat 16 [0x7403, 0x5C90, 0x4CBD, 0x3F98, 0xCB5C, 0x2E05, 0xB2F1, 0xC7A2, 0x3E7D, 0x14F4, 0x930D, 0x4CDD,
      0x8673, 0x7EBF, 0xE009, 0x57EE]) =
    some (mat 16 [0x297F, 0x7D49, 0x984E, 0xD374, 0xD560, 0x6D73, 0x6577, 0x08EB, 0xB0D6, 0x785E, 0x40F1, 0xA39D, 0x0F30,
      0x2A23, 0x31D5, 0xA1FD]).rows := by decide +kernel

/-! ### The window and the step -/

/-- T-ERR-6's second write: STATUS after it is 0x51 and ERRCMD the dropped word. -/
theorem test_overrun : nextHas (step ((pendingBase 0x20020000).withAgenda [writeEvent .cmd 0x20820000]))
    fun t => t.status == 0x00000051 && t.errcmd == 0x20820000 := by decide
/-- T-ERR-13: ID. -/
theorem test_read_id : nextHas (step (offered (readEvent .id))) fun t => t.readLog == [0x47463210] := by decide
/-- T-ERR-9: SRST abandons the pending command. -/
theorem test_soft_reset : nextHas (step ((pendingBase 0x38800000).withAgenda [writeEvent .ctrl 1]))
    fun t => t == State.reset := by decide
/-- T-ERR-3: an unassigned opcode executes to ILLEGAL_CMD. -/
theorem test_illegal : nextHas (step (pendingBase 0xFC000000))
    fun t => t.status == 0x00000030 && t.errcmd == 0xFC000000 := by decide
/-- 20_memory.md R43: a byte read is refused. -/
theorem test_refused : isRefused (step (offered (.access (.read 0x08 1)))) ∧ isRefused (step (offered (.access (.write 0x05 4 1)))) := by
  decide
/-- The word placed by withFetchWord is executed by the next step (P1 step 1). -/
theorem test_fetch : decodeTableWord 32 0x20030000 = some (.ident 0 3) ∧
    nextHas (step (State.reset.withFetchWord 32 0x20030000)) fun t =>
      t.getM 0 == some (mat 3 [1, 2, 4]) && t.pending == none && t.agenda == [] := by decide

/-! ### Witnesses: each clause's hypotheses are met together by a concrete state and operands -/

theorem witness_base_inv : base.Inv where
  vectors := by decide
  matrices := by decide
  err_le := by decide
  errcmd := by decide
  result := .inl rfl

theorem witness_DecodeOfEncode : (Instr.mwr 7 15 7).wellFormed = true := by decide
theorem witness_EncodeOfDecoded : decode 0x28300020 = .ok (.mwr 0 2 3) := by decide
theorem witness_UnassignedOpcode : BlockTurnNext (pendingBase 0x40000000) ∧ (pendingBase 0x40000000).pending = some 0x40000000 ∧
    0x10 ≤ (opField 0x40000000).toNat := ⟨.inl rfl, rfl, by decide⟩
theorem witness_ReservedBit : rowXorr ∈ opcodeTable ∧ opField 0x34100001 = rowXorr.op ∧ BlockTurnNext (pendingBase 0x34100001) ∧
    (pendingBase 0x34100001).pending = some 0x34100001 ∧ (0x34100001 : Word) &&& rowXorr.mask ≠ rowXorr.pattern :=
  ⟨by decide, by decide, .inl rfl, rfl, by decide⟩
theorem witness_StepRunsDecoded : BlockTurnNext (pendingBase 0x38800000) ∧ (pendingBase 0x38800000).pending = some 0x38800000 ∧
    decode 0x38800000 = .ok (.inv 1 0) := ⟨.inl rfl, rfl, by decide⟩
theorem witness_BlockStep_idle : BlockTurnNext (offered .blockTurn) ∧ (offered .blockTurn).pending = none :=
  ⟨.inr ⟨[], rfl⟩, rfl⟩
theorem witness_BlockStep_illegal : BlockTurnNext (pendingBase 0) ∧ (pendingBase 0).pending = some 0 ∧
    decode 0 = .error (.unassignedOpcode 0) := ⟨.inl rfl, rfl, by decide⟩

theorem witness_Refused_narrow : (offered (.access (.read 0x1C 1))).agenda = .access (.read 0x1C 1) :: [] ∧
    (Access.read 0x1C 1).Misfit := ⟨rfl, .inl (by decide)⟩
theorem witness_Refused_misaligned : (offered (.access (.write 0x1D 4 9))).agenda = .access (.write 0x1D 4 9) :: [] ∧
    (Access.write 0x1D 4 9).Misfit := ⟨rfl, .inr (by decide)⟩

theorem witness_EmptyOperand : emptyApplies (.vmul 2 0 5) base := .inr ⟨5, by decide, by decide⟩
theorem witness_Priority_range : ¬ emptyApplies (.mwr 0 3 3) base ∧ rangeApplies (.mwr 0 3 3) base :=
  ⟨by simp only [emptyApplies]; decide, ⟨matS, by decide, by decide⟩⟩
theorem witness_Priority_dim :
    ¬ emptyApplies (.mwr 0 2 3) base ∧ ¬ rangeApplies (.mwr 0 2 3) base ∧ dimApplies (.mwr 0 2 3) base := by
  refine ⟨by simp only [emptyApplies]; decide, ?_, ⟨⟨4, 0b0110⟩, matS, by decide, by decide, by decide⟩⟩
  rintro ⟨A, hA, h⟩
  have : A = matS := by simpa using hA.symm.trans (show base.getM 0 = some matS by decide)
  exact absurd h (this ▸ by decide)
theorem witness_Priority_none :
    ¬ emptyApplies (.ldv 0 7 3) base ∧ ¬ rangeApplies (.ldv 0 7 3) base ∧ ¬ dimApplies (.ldv 0 7 3) base := by
  refine ⟨by simp only [emptyApplies]; decide, by simp only [rangeApplies]; decide, by simp only [dimApplies]; decide⟩
theorem witness_ErrcmdHolds_block :
    nextHas (step (pendingBase 0xFC000000)) (fun t => t.err != 0) ∧ (pendingBase 0xFC000000).err = 0 := by decide
theorem witness_ErrcmdHolds_overrun :
    nextHas (step ((pendingBase 0).withAgenda [writeEvent .cmd 5])) (fun t => t.err == 5) ∧ (pendingBase 0).err = 0 := by decide

/-- base with an error recorded and a read, a CMD write and a turn to come. -/
def erred : State := (base.setError .range 0x20110000).withAgenda [writeEvent .cmd 0x20030000, .blockTurn, readEvent .result]
theorem witness_Sticky : nextHas (step erred) (fun t => t.err == 4) ∧ erred.err ≠ 0 ∧
    ∀ e ∈ erred.agenda.head?, e.keepsError = true := by decide
theorem witness_Discarded : erred.err ≠ 0 ∧ erred.pending = none ∧ (∀ e ∈ erred.agenda, e.keepsError = true) ∧
    nextHas (Host.Core.run Sys2Proof.core 3 erred) (fun t => t.readLog == [0]) := by decide
theorem witness_Overrun : ((pendingBase 0x38800000).withAgenda [writeEvent .cmd 5, .blockTurn]).pending = some 0x38800000 ∧
    ((pendingBase 0x38800000).withAgenda [writeEvent .cmd 5, .blockTurn]).agenda =
      .access (.write 0x04 4 5) :: .blockTurn :: [] := ⟨rfl, rfl⟩

theorem witness_VectorFrame : writesVec (.mrd 4 1 2) = some 4 ∧ nextHas (exec (.mrd 4 1 2) base) fun _ => true := by decide
theorem witness_MatrixFrame : writesMat (.xorr 1 0 2) = some 1 ∧ (∀ a, (Instr.xorr 1 0 2) ≠ .inv 1 a) ∧
    nextHas (exec (.xorr 1 0 2) base) fun _ => true := by decide
theorem witness_RdvInvFrame : nextHas (exec (.rdv 0) base) (fun _ => true) ∧ nextHas (exec (.inv 0 1) base) fun _ => true := by
  decide

theorem witness_Ldv : (1 ≤ 16 ∧ 16 ≤ 16 ∧ (0xFFFF : Row).toNat < 2 ^ 16) ∧ (17 = 0 ∨ 16 < 17) ∧
    (1 ≤ 1 ∧ 1 ≤ 16 ∧ 2 ^ 1 ≤ (2 : Row).toNat) := by decide
theorem witness_Rdv : base.getV 0 = some ⟨3, 0b110⟩ ∧ base.getV 7 = none := by decide
theorem witness_Vxor : (base.getV 0 = some ⟨3, 0b110⟩ ∧ base.getV 1 = some ⟨3, 0b011⟩) ∧
    (base.getV 3 = some ⟨4, 0b0110⟩ ∧ (3 ≠ 4)) ∧ base.getV 2 = none := by decide
theorem witness_Vdot : base.getV 0 = some ⟨3, 0b110⟩ ∧ base.getV 1 = some ⟨3, 0b011⟩ ∧ (VecVal.mk 3 0b110).wf ∧
    (VecVal.mk 3 0b011).wf := by decide
theorem witness_Vmul : base.getV 0 = some ⟨3, 0b110⟩ ∧ base.getM 1 = some matA ∧ (VecVal.mk 3 0b110).wf ∧ matA.wf ∧
    matA.dim = 3 ∧ (base.getV 3 = some ⟨4, 0b0110⟩) ∧ base.getM 7 = none := by decide
theorem witness_Vmul_cases : (VecVal.mk 3 0).wf ∧ (VecVal.mk 3 (1 <<< 2)).wf ∧ (MatVal.identity 16).wf := by decide
theorem witness_RoundTrip : 1 ≤ 10 ∧ 10 ≤ 16 ∧ (1023 : Row).toNat < 2 ^ 10 := by decide
theorem witness_Linear : base.getV 0 = some ⟨3, 0b110⟩ ∧ base.getV 1 = some ⟨3, 0b011⟩ ∧ base.getM 1 = some matA ∧
    3 = matA.dim ∧ (0 : VReg) ≠ 1 ∧ (0 : VReg) ≠ 2 := by decide
theorem witness_Composes : (base.setM 2 (some (matA.mul matS))).getV 0 = some ⟨3, 0b110⟩ ∧
    (base.setM 2 (some (matA.mul matS))).getM 1 = some matA ∧ (base.setM 2 (some (matA.mul matS))).getM 0 = some matS ∧
    (base.setM 2 (some (matA.mul matS))).getM 2 = some (matA.mul matS) ∧ 3 = matA.dim ∧ matA.dim = matS.dim ∧
    2 < matA.dim := by decide
theorem witness_Ident : (1 ≤ 1 ∧ 1 ≤ 16) ∧ (1 ≤ 16 ∧ 16 ≤ 16) ∧ (17 = 0 ∨ 16 < 17) := by decide
theorem witness_Mmov : base.getM 1 = some matA ∧ base.getM 7 = none := by decide
theorem witness_Mwr : (base.getV 0 = some ⟨3, 0b110⟩ ∧ base.getM 1 = some matA ∧ matA.wf ∧ 2 < matA.dim ∧ 3 = matA.dim) ∧
    base.getV 7 = none ∧ matA.dim ≤ 3 ∧ (base.getV 3 = some ⟨4, 0b0110⟩ ∧ 4 ≠ matA.dim) := by decide
theorem witness_Mrd : (base.getM 1 = some matA ∧ 2 < matA.dim) ∧ base.getM 7 = none ∧ matA.dim ≤ 3 := by decide
theorem witness_Swapr_Xorr : base.getM 1 = some matA ∧ matA.wf ∧ 0 < matA.dim ∧ 2 < matA.dim ∧ base.getM 7 = none ∧
    (matA.dim ≤ 3 ∨ matA.dim ≤ 0) := by decide
theorem witness_Involutions : base.getM 1 = some matA ∧ matA.wf ∧ 0 < matA.dim ∧ 2 < matA.dim ∧ 0 ≠ 2 := by decide

theorem witness_LeftInverse : matA.wf ∧ gaussJordan matA = some matX.rows := by decide
theorem witness_Singular : matS.wf ∧ gaussJordan matS = none := by decide
theorem witness_InvWrites : base.getM 1 = some matA ∧ matA.wf ∧ matX.wf ∧ matX.dim = matA.dim ∧
    matX.mul matA = MatVal.identity matA.dim := by decide
/-- The 1 by 1 zero matrix has no left inverse. -/
theorem witness_InvWrites_singular : (mat 1 [0]).wf ∧
    ¬ ∃ B : MatVal, B.wf ∧ B.dim = (mat 1 [0]).dim ∧ B.mul (mat 1 [0]) = MatVal.identity (mat 1 [0]).dim := by
  refine ⟨by decide, ?_⟩
  rintro ⟨B, _, _, h⟩
  have h0 : rowOf (B.mul (mat 1 [0])).rows 0 = 1 := by rw [h]; decide
  have z : rowOf (mat 1 [0]).rows 0 = 0 := by decide
  have hz : rowTimes (rowOf B.rows 0) (mat 1 [0]).rows (mat 1 [0]).dim = 0 := by
    show (if _ then _ ^^^ rowOf (mat 1 [0]).rows 0 else _) = (0 : Row)
    rw [z]
    split <;> rfl
  rw [rowOf_mul _ _ (by decide), hz] at h0
  exact absurd h0 (by decide)
theorem witness_InvertTwice : base.getM 1 = some matA ∧ matA.wf ∧ nextHas (exec (.inv 2 1) base) fun u => !u.ni := by decide
theorem witness_SingularInv :
    ((pendingBase 0x38800000).withAgenda (.blockTurn :: .access (.write 0x04 4 5) :: [])).pending = some 0x38800000 ∧
    decode 0x38800000 = .ok (.inv 1 0) ∧ base.getM 0 = some matS ∧ gaussJordan matS = none ∧ base.err = 0 := by decide
theorem witness_NiChanges : nextHas (step (pendingBase 0x38800000)) (fun t => t.ni != base.ni) ∧
    nextHas (step ((base.setNi true).withAgenda [writeEvent .ctrl 1])) (fun t => !t.ni) := by decide
theorem witness_ResultChanges : nextHas (step (pendingBase 0x08100000)) (fun t => t.result != base.result) ∧
    nextHas (step ((base.setResult 5).withAgenda [.rst none])) (fun t => t.result == 0) := by decide

theorem witness_Id : (offered (readEvent .id)).agenda = .access (.read 0x00 4) :: [] ∧
    (offered (writeEvent .id 9)).agenda = .access (.write 0x00 4 9) :: [] := by decide
theorem witness_Status : (offered (readEvent .status)).agenda = .access (.read 0x08 4) :: [] ∧
    (offered (writeEvent .status 9)).agenda = .access (.write 0x08 4 9) :: [] := by decide
theorem witness_ResultErrcmd : (offered (readEvent .result)).agenda = .access (.read 0x0C 4) :: [] ∧
    (offered (readEvent .result)).pending = none ∧ (offered (readEvent .errcmd)).agenda = .access (.read 0x14 4) :: [] ∧
    (offered (writeEvent .result 9)).agenda = .access (.write 0x0C 4 9) :: [] ∧
    (offered (writeEvent .errcmd 9)).agenda = .access (.write 0x14 4 9) :: [] := by decide
theorem witness_ResultBusy : ((pendingBase 5).withAgenda [readEvent .result]).agenda = .access (.read 0x0C 4) :: [] ∧
    ((pendingBase 5).withAgenda [readEvent .result]).pending ≠ none := by decide
theorem witness_AccessRights : (offered (readEvent .reserved1C)).agenda = .access (.read 0x1C 4) :: [] ∧
    (offered (readEvent .cmd)).agenda = .access (.read 0x04 4) :: [] ∧
    (offered (writeEvent .reserved18 9)).agenda = .access (.write 0x18 4 9) :: [] := by decide
theorem witness_ReadsNoEffect : (offered (readEvent .ctrl)).agenda = .access (.read 0x10 4) :: [] ∧
    nextHas (step (offered (readEvent .ctrl))) fun _ => true := by decide
theorem witness_CmdWrite : (offered (writeEvent .cmd 5)).agenda = .access (.write 0x04 4 5) :: [] ∧
    (base.pending = none ∧ base.err = 0) ∧ ((pendingBase 5).pending ≠ none ∧ (pendingBase 5).err = 0) ∧
    (erred.pending = none ∧ erred.err ≠ 0) ∧ ((erred.latch 5).pending ≠ none ∧ (erred.latch 5).err ≠ 0) := by decide
theorem witness_Ctrl : (offered (writeEvent .ctrl 2)).agenda = .access (.write 0x10 4 2) :: [] ∧
    ((2 : Word).getLsbD 0 = false ∧ (2 : Word).getLsbD 1 = true) ∧ (3 : Word).getLsbD 0 = true ∧
    ((4 : Word).getLsbD 0 = false ∧ (4 : Word).getLsbD 1 = false) := by decide
theorem witness_ErrorClear : (erred.withAgenda [writeEvent .ctrl 2, writeEvent .cmd 5]).agenda =
    .access (.write 0x10 4 2) :: .access (.write 0x04 4 5) :: [] ∧ erred.pending = none := by decide
theorem witness_Rst : (offered (.rst (some (.read 0x08 4)))).agenda = .rst (some (.read 0x08 4)) :: [] ∧
    (offered (.rst none)).agenda = .rst none :: [] := by decide
theorem witness_Window : (31 : Nat) < 32 ∧ Config.base + 0x1F < Config.base + 32 ∧
    (0x04 : BitVec 5).extractLsb' 2 3 = (0x07 : BitVec 5).extractLsb' 2 3 := ⟨by decide, by omega, by decide⟩
theorem witness_KeepsInvariant : base.Inv ∧ nextHas (step base) fun _ => true := ⟨witness_base_inv, by decide⟩
theorem witness_Completes : ∀ e ∈ erred.agenda, e.supported = true := by decide
theorem witness_Exec : (base.withAgenda ((HostOp.exec 0x38800000).events 2)).pending = none ∧
    (base.withAgenda ((HostOp.exec 0x38800000).events 2)).err = 0 ∧
    (base.withAgenda ((HostOp.exec 0x38800000).events 2)).agenda = (HostOp.exec 0x38800000).events 2 := ⟨rfl, rfl, rfl⟩

/-- One clock cycle with an access of the host. -/
def cycle (we : Bool) (addr : BitVec 3) (v : Word) : PortCycle := ⟨false, true, we, addr, v⟩
theorem witness_Simultaneous :
    ((pendingBase 0x20030000).withAgenda ((cycle true 1 5).events true)).pending = some 0x20030000 ∧
    (cycle true 1 5).rst = false ∧ (cycle true 1 5).sel = true ∧ (cycle true 1 5).we = true ∧ (cycle true 1 5).addr = 1 ∧
    nextHas (step ((pendingBase 0x20030000).withAgenda [])) (fun u => u.err == 0) := by decide
theorem witness_Simultaneous_reads_and_ctrl :
    ((cycle false 2 0).we = false ∧ (cycle false 2 0).addr = 2) ∧
    ((cycle true 4 2).addr = 4 ∧ (cycle true 4 2).wdata.getLsbD 0 = false ∧ (cycle true 4 2).wdata.getLsbD 1 = true) ∧
    (cycle true 4 1).wdata.getLsbD 0 = true := by decide

end Sys2Proof.Tests
end

/-! PROOF. The invariant `State.Inv` is kept by every step. The parts, from the inside out: INV's passes keep their
accumulator legal, every operation on the state keeps the invariant, every command's rule does, and so does a step. -/

namespace Sys2Proof.Machine

/-! ### INV gives a legal matrix (42_inversion.md R89 to R93)

Whatever W is, every row operation works on rows below n, so X stays a legal matrix of dimension n. -/

/-- The accumulator X of an inversion of dimension n is a legal matrix. -/
def GaussPair.Legal (n : Nat) (g : GaussPair) : Prop := (MatVal.mk n g.X).wf

theorem gaussStart_legal {A : MatVal} (h : A.wf) : (gaussStart A).Legal A.dim := identity_wf h.1

theorem gaussSwap_legal {n i p : Nat} {g : GaussPair} (h : g.Legal n) (hi : i < n) (hp : p < n) :
    (gaussSwap i g p).Legal n := swapRows_wf h hi hp

theorem gaussClear_legal {n i r : Nat} {g : GaussPair} (h : g.Legal n) (hr : r < n) : (gaussClear i g r).Legal n := by
  unfold gaussClear
  split
  · exact xorRow_wf h hr
  · exact h

/-- Clearing any rows below n. -/
theorem foldl_gaussClear_legal {n : Nat} {g : GaussPair} (i : Nat) (rs : List Nat) (h : g.Legal n)
    (hrs : ∀ r ∈ rs, r < n) : (rs.foldl (gaussClear i) g).Legal n :=
  List.foldlRecOn rs (gaussClear i) h fun _ hb r hr => gaussClear_legal hb (hrs r hr)

/-- The rows i+1 to n-1 are below n. -/
theorem lt_of_mem_rows_after {n i p : Nat} (h : p ∈ List.range' (i + 1) (n - (i + 1))) : p < n := by
  rw [List.mem_range'_1] at h
  omega

theorem pivotSearch_lt {n i p : Nat} {W : Rows} (h : pivotSearch n W i = some p) : p < n :=
  lt_of_mem_rows_after (List.mem_of_find?_eq_some h)

theorem gaussPivot_legal {n i : Nat} {g g' : GaussPair} (h : g.Legal n) (hi : i < n) (hg : gaussPivot n g i = some g') :
    g'.Legal n := by
  unfold gaussPivot at hg
  split at hg
  · exact Option.some.inj hg ▸ h
  · obtain ⟨p, hp, rfl⟩ := Option.map_eq_some_iff.1 hg
    exact gaussSwap_legal h hi (pivotSearch_lt hp)

theorem forwardColumn_legal {n i : Nat} {g g' : GaussPair} (h : g.Legal n) (hi : i < n)
    (hg : forwardColumn n g i = some g') : g'.Legal n := by
  obtain ⟨k, hk, rfl⟩ := Option.map_eq_some_iff.1 hg
  exact foldl_gaussClear_legal i _ (gaussPivot_legal h hi hk) fun _ => lt_of_mem_rows_after

/-- The forward pass over any columns below n. -/
theorem foldlM_forwardColumn_legal {n : Nat} {cs : List Nat} {g g' : GaussPair} (h : g.Legal n) (hcs : ∀ i ∈ cs, i < n)
    (hg : cs.foldlM (forwardColumn n) g = some g') : g'.Legal n := by
  induction cs generalizing g with
  | nil => exact Option.some.inj hg ▸ h
  | cons i cs ih =>
    obtain ⟨k, hk, hg⟩ := Option.bind_eq_some_iff.1 hg
    exact ih (forwardColumn_legal h (hcs i (by simp)) hk) (fun j hj => hcs j (by simp [hj])) hg

theorem forwardPass_legal {n : Nat} {g g' : GaussPair} (h : g.Legal n) (hg : forwardPass n g = some g') : g'.Legal n :=
  foldlM_forwardColumn_legal h (fun _ => List.mem_range.1) hg

theorem backwardColumn_legal {n i : Nat} {g : GaussPair} (h : g.Legal n) (hi : i < n) : (backwardColumn g i).Legal n :=
  foldl_gaussClear_legal i _ h fun _ hr => (List.mem_range.1 hr).trans hi

theorem backwardPass_legal {n : Nat} {g : GaussPair} (h : g.Legal n) : (backwardPass n g).Legal n := by
  refine List.foldlRecOn _ backwardColumn h fun _ hb i hi => backwardColumn_legal hb ?_
  rw [List.mem_reverse, List.mem_range'_1] at hi
  omega

/-- What `gaussJordan` returns for a legal matrix is a legal matrix of the same dimension. -/
theorem gaussJordan_wf {A : MatVal} {X : Rows} (h : A.wf) (hX : gaussJordan A = some X) : (MatVal.mk A.dim X).wf := by
  obtain ⟨g, hg, rfl⟩ := Option.map_eq_some_iff.1 hX
  exact backwardPass_legal (forwardPass_legal (gaussStart_legal h) hg)

/-- The cell INV writes for a legal matrix holds, if anything, a legal matrix. -/
theorem inverseCell_wf {A : MatVal} (h : A.wf) :
    ∀ B, (gaussJordan A).map (fun X => MatVal.mk A.dim X) = some B → B.wf := by
  intro B hB
  obtain ⟨X, hX, rfl⟩ := Option.map_eq_some_iff.1 hB
  exact gaussJordan_wf h hX

/-! ### The operations on the state -/

namespace State.Inv

variable {s : State}

theorem setV (h : s.Inv) (r : VReg) {x : VecVal} (hx : x.wf) : (s.setV r (some x)).Inv where
  vectors q y hy := by
    by_cases e : q = r
    · subst e
      rw [getV_setV_self] at hy
      exact Option.some.inj hy ▸ hx
    · rw [getV_setV_ne _ _ _ _ e] at hy
      exact h.vectors q y hy
  matrices := h.matrices
  err_le := h.err_le
  errcmd := h.errcmd
  result := h.result

theorem setM (h : s.Inv) (r : MReg) {c : MCell} (hc : ∀ A, c = some A → A.wf) : (s.setM r c).Inv where
  vectors := h.vectors
  matrices q A hA := by
    by_cases e : q = r
    · subst e
      rw [getM_setM_self] at hA
      exact hc A hA
    · rw [getM_setM_ne _ _ _ _ e] at hA
      exact h.matrices q A hA
  err_le := h.err_le
  errcmd := h.errcmd
  result := h.result

theorem setM_some (h : s.Inv) (r : MReg) {A : MatVal} (hA : A.wf) : (s.setM r (some A)).Inv :=
  h.setM r fun _ e => Option.some.inj e ▸ hA

theorem setNi (h : s.Inv) (b : Bool) : (s.setNi b).Inv := ⟨h.vectors, h.matrices, h.err_le, h.errcmd, h.result⟩

theorem setInverse (h : s.Inv) (d : MReg) {c : MCell} (hc : ∀ A, c = some A → A.wf) : (s.setInverse d c).Inv :=
  (h.setM d hc).setNi c.isNone

theorem setResult (h : s.Inv) {x : VecVal} (hx : x.wf) : (s.setResult (resultWord x)).Inv :=
  ⟨h.vectors, h.matrices, h.err_le, h.errcmd, .inr ⟨x, hx, rfl⟩⟩

theorem setError (h : s.Inv) (c : ErrorCode) (w : Word) : (s.setError c w).Inv :=
  ⟨h.vectors, h.matrices, c.code_range.2, fun e => absurd e c.code_range.1, h.result⟩

theorem raiseError (h : s.Inv) (c : ErrorCode) (w : Word) : (s.raiseError c w).Inv := by
  rcases s.raiseError_cases c w with ⟨_, e⟩ | ⟨_, e⟩ <;> rw [e]
  · exact h
  · exact h.setError c w

theorem clearError (h : s.Inv) : s.clearError.Inv := ⟨h.vectors, h.matrices, by simp, fun _ => rfl, h.result⟩

theorem latch (h : s.Inv) (w : Word) : (s.latch w).Inv := ⟨h.vectors, h.matrices, h.err_le, h.errcmd, h.result⟩

theorem retire (h : s.Inv) : s.retire.Inv := ⟨h.vectors, h.matrices, h.err_le, h.errcmd, h.result⟩

theorem withAgenda (h : s.Inv) (es : List Event) : (s.withAgenda es).Inv :=
  ⟨h.vectors, h.matrices, h.err_le, h.errcmd, h.result⟩

theorem answer (h : s.Inv) (w : Word) : (s.answer w).Inv := ⟨h.vectors, h.matrices, h.err_le, h.errcmd, h.result⟩

theorem answerFree (h : s.Inv) : s.answerFree.Inv := ⟨h.vectors, h.matrices, h.err_le, h.errcmd, h.result⟩

/-- A reset establishes the invariant, whatever the state was. -/
theorem resetBlock (s : State) : s.resetBlock.Inv where
  vectors r x h := by simp [State.getV, Vector.get_eq_getElem] at h
  matrices r A h := by simp [State.getM, Vector.get_eq_getElem] at h
  err_le := by simp
  errcmd _ := rfl
  result := .inl rfl

end State.Inv

/-! ### The commands -/

/-- If the rule ends without an error, the state it ends in satisfies the invariant. -/
def EndsInInv (r : Except ErrorCode State) : Prop := ∀ u, r = .ok u → u.Inv

theorem endsInInv_pure {u : State} (h : u.Inv) : EndsInInv (pure u) := fun _ e => Except.ok.inj e ▸ h

/-- After a check the rule may use what was checked. -/
theorem endsInInv_require {p : Prop} [Decidable p] {c : ErrorCode} {f : Unit → Except ErrorCode State}
    (h : p → EndsInInv (f ())) : EndsInInv (require p c >>= f) := by
  intro u hu
  by_cases hp : p
  · exact h hp u (by simpa [hp] using hu)
  · simp [hp] at hu

/-- After reading a vector operand the rule has a legal vector. -/
theorem endsInInv_vecOperand {s : State} {r : VReg} {f : VecVal → Except ErrorCode State} (hs : s.Inv)
    (h : ∀ x, x.wf → EndsInInv (f x)) : EndsInInv (vecOperand s r >>= f) := by
  intro u hu
  cases hx : s.getV r with
  | none => simp [vecOperand_of_none hx] at hu
  | some x => exact h x (hs.vectors r x hx) u (by simpa [vecOperand_of_some hx] using hu)

/-- After reading a matrix operand the rule has a legal matrix. -/
theorem endsInInv_matOperand {s : State} {r : MReg} {f : MatVal → Except ErrorCode State} (hs : s.Inv)
    (h : ∀ A, A.wf → EndsInInv (f A)) : EndsInInv (matOperand s r >>= f) := by
  intro u hu
  cases hA : s.getM r with
  | none => simp [matOperand_of_none hA] at hu
  | some A => exact h A (hs.matrices r A hA) u (by simpa [matOperand_of_some hA] using hu)

/-- A command keeps the invariant when its rule does: an error keeps it always. -/
theorem finish_keeps_inv {i : Instr} {s t : State} {r : Except ErrorCode State} (h : finish i s r = .next t)
    (hs : s.Inv) (body : EndsInInv r) : t.Inv := by
  rcases finish_next.1 h with h | ⟨c, _, rfl⟩
  · exact body t h
  · exact hs.raiseError c _

/-- The vector VDOT writes is legal. -/
theorem oneBit_wf (b : Bool) : (VecVal.mk 1 ((BitVec.ofBool b).setWidth 16)).wf := by
  cases b <;> decide

theorem exec_keeps_inv {i : Instr} {s t : State} (h : exec i s = .next t) (hs : s.Inv) : t.Inv := by
  cases i with
  | ldv d imm len =>
    exact finish_keeps_inv h hs <| endsInInv_require fun hlen => endsInInv_require fun himm =>
      endsInInv_pure (hs.setV d ⟨hlen, himm⟩)
  | rdv a =>
    exact finish_keeps_inv h hs <| endsInInv_vecOperand hs fun x hx => endsInInv_pure (hs.setResult hx)
  | vxor d a b =>
    exact finish_keeps_inv h hs <| endsInInv_vecOperand hs fun x hx => endsInInv_vecOperand hs fun y hy =>
      endsInInv_require fun e => endsInInv_pure (hs.setV d ⟨hx.1, xor_fits hx.2 (e ▸ hy.2)⟩)
  | vdot d a b =>
    exact finish_keeps_inv h hs <| endsInInv_vecOperand hs fun x _ => endsInInv_vecOperand hs fun y _ =>
      endsInInv_require fun _ => endsInInv_pure (hs.setV d (oneBit_wf _))
  | vmul d a b =>
    exact finish_keeps_inv h hs <| endsInInv_vecOperand hs fun x _ => endsInInv_matOperand hs fun A hA =>
      endsInInv_require fun _ => endsInInv_pure (hs.setV d ⟨hA.1, rowTimes_fits hA _ _⟩)
  | ident d n =>
    exact finish_keeps_inv h hs <| endsInInv_require fun hn => endsInInv_pure (hs.setM_some d (identity_wf hn))
  | mmov d a =>
    exact finish_keeps_inv h hs <| endsInInv_matOperand hs fun A hA => endsInInv_pure (hs.setM_some d hA)
  | mwr d i a =>
    exact finish_keeps_inv h hs <| endsInInv_vecOperand hs fun x hx => endsInInv_matOperand hs fun A hA =>
      endsInInv_require fun hi => endsInInv_require fun e =>
      endsInInv_pure (hs.setM_some d (setRow_wf hA hi (e ▸ hx.2)))
  | mrd d a i =>
    exact finish_keeps_inv h hs <| endsInInv_matOperand hs fun A hA => endsInInv_require fun _ =>
      endsInInv_pure (hs.setV d ⟨hA.1, hA.row_fits i⟩)
  | swapr d i j =>
    exact finish_keeps_inv h hs <| endsInInv_matOperand hs fun A hA => endsInInv_require fun hi =>
      endsInInv_require fun hj => endsInInv_pure (hs.setM_some d (swapRows_wf hA hi hj))
  | xorr d i j =>
    exact finish_keeps_inv h hs <| endsInInv_matOperand hs fun A hA => endsInInv_require fun hi =>
      endsInInv_require fun _ => endsInInv_pure (hs.setM_some d (xorRow_wf hA hi))
  | inv d a =>
    exact finish_keeps_inv h hs <| endsInInv_matOperand hs fun A hA =>
      endsInInv_pure (hs.setInverse d (inverseCell_wf hA))

/-! ### The block's turn, the host's accesses and reset -/

section
variable {s t : State} (hs : s.Inv)
include hs

theorem executeWord_keeps_inv {w : Word} (h : executeWord w s = .next t) : t.Inv := by
  cases hd : decode w with
  | ok i =>
    obtain ⟨u, hu⟩ := exec_next i s
    rw [executeWord_ok hd, hu, retireOutcome_next] at h
    cases h
    exact (exec_keeps_inv hu hs).retire
  | error e =>
    rw [executeWord_error hd] at h
    cases h
    exact (hs.raiseError _ _).retire

theorem blockStep_keeps_inv (h : blockStep s = .next t) : t.Inv := by
  cases hp : s.pending with
  | some w => exact executeWord_keeps_inv hs (blockStep_some hp ▸ h)
  | none =>
    rw [blockStep_none hp] at h
    cases h
    exact hs

theorem hostRead_keeps_inv (r : WindowReg) : (hostRead r s).Inv := by
  rcases hostRead_cases r s with ⟨e, _⟩ | ⟨e, _⟩ <;> rw [e]
  · exact hs.answerFree
  · exact hs.answer _

theorem offerCommand_keeps_inv (w : Word) : (offerCommand w s).Inv := by
  rcases offerCommand_cases w s with ⟨_, e⟩ | ⟨_, _, e⟩ | ⟨_, _, e⟩ <;> rw [e]
  · exact hs.raiseError _ w
  · exact hs
  · exact hs.latch w

theorem writeCtrl_keeps_inv (w : Word) : (writeCtrl w s).Inv := by
  rcases writeCtrl_cases w s with ⟨_, e⟩ | ⟨_, _, e⟩ | ⟨_, _, e⟩ <;> rw [e]
  · exact State.Inv.resetBlock s
  · exact hs.clearError
  · exact hs

theorem hostWrite_keeps_inv (r : WindowReg) (w : Word) : (hostWrite r w s).Inv := by
  rcases hostWrite_cases r w s with ⟨_, e⟩ | ⟨_, e⟩ | ⟨_, _, e⟩ <;> rw [e]
  · exact offerCommand_keeps_inv hs w
  · exact writeCtrl_keeps_inv hs w
  · exact hs

theorem hostAccess_keeps_inv {a : Access} (h : hostAccess a s = .next t) : t.Inv := by
  rcases hostAccess_cases a s with ⟨_, e⟩ | ⟨off, _, e⟩ | ⟨off, w, _, e⟩ <;> rw [e] at h <;> cases h
  · exact hostRead_keeps_inv hs _
  · exact hostWrite_keeps_inv hs _ w

end

/-- A reset cycle establishes the invariant, whatever the state and the access in the cycle were. -/
theorem hardwareReset_inv (during : Option Access) (s : State) : (hardwareReset during s).Inv := by
  rcases during with _ | _ | _
  · exact State.Inv.resetBlock s
  · exact (State.Inv.resetBlock s).answerFree
  · exact State.Inv.resetBlock s

theorem step_keeps_inv {s t : State} (hs : s.Inv) (h : step s = .next t) : t.Inv := by
  cases ha : s.agenda with
  | nil => exact blockStep_keeps_inv hs (step_nil ha ▸ h)
  | cons e es =>
    cases e with
    | blockTurn => exact blockStep_keeps_inv (hs.withAgenda es) (step_blockTurn ha ▸ h)
    | access a => exact hostAccess_keeps_inv (hs.withAgenda es) (step_access ha ▸ h)
    | rst during =>
      rw [step_rst ha] at h
      cases h
      exact hardwareReset_inv during _

/-- Settles O55, by cases on the event the step takes: the block's turn (a command's rule or an error), a host access, or
a reset. The legality of INV's result is `gaussJordan_wf`. -/
theorem stepKeepsTheInvariant : Obligations.StepKeepsTheInvariant := fun _ _ => step_keeps_inv

end Sys2Proof.Machine

/-! PROOF. The state and who writes it (10_state.md): what a step can do, said once (`StepResult`), with the
frames of the commands, the stickiness of ERR, the writers of NI and RESULT, the reads and writes of the window, and the
state after reset. -/

namespace Sys2Proof

/-! ### A word is the encoding of the command it decodes to (30_encoding.md R64, R71)

The reserved bits of a word that decodes are zero, so its fields are all there is to it. -/

/-- Where a row's mask is all ones, a word of the row holds the pattern's bits. -/
theorem field_of_masked {w m p : Word} (h : w &&& m = p) (i n : Nat) (hm : m.extractLsb' i n = BitVec.allOnes n) :
    w.extractLsb' i n = p.extractLsb' i n := by
  rw [← h, BitVec.extractLsb'_and, hm, BitVec.and_allOnes]

/-- The same as a number: bits i to i + n - 1 of a word whose pattern is zero there. -/
theorem bits_of_masked {w m p : Word} (h : w &&& m = p) (i n : Nat) (hm : m.extractLsb' i n = BitVec.allOnes n)
    (hp : p.extractLsb' i n = 0#n) : w.toNat / 2 ^ i % 2 ^ n = 0 := by
  have hw := congrArg BitVec.toNat ((field_of_masked h i n hm).trans hp)
  simpa [BitVec.extractLsb'_toNat, Nat.shiftRight_eq_div_pow] using hw

theorem dField_of_masked {w m p : Word} (h : w &&& m = p) (hm : m.extractLsb' 23 3 = BitVec.allOnes 3)
    (hp : p.extractLsb' 23 3 = 0#3) : dField w = 0 := by
  rw [dField, field_of_masked h 23 3 hm, hp]; rfl

theorem aField_of_masked {w m p : Word} (h : w &&& m = p) (hm : m.extractLsb' 20 3 = BitVec.allOnes 3)
    (hp : p.extractLsb' 20 3 = 0#3) : aField w = 0 := by
  rw [aField, field_of_masked h 20 3 hm, hp]; rfl

theorem bField_of_masked {w m p : Word} (h : w &&& m = p) (hm : m.extractLsb' 17 3 = BitVec.allOnes 3)
    (hp : p.extractLsb' 17 3 = 0#3) : bField w = 0 := by
  rw [bField, field_of_masked h 17 3 hm, hp]; rfl

theorem jField_of_masked {w m p : Word} (h : w &&& m = p) (hm : m.extractLsb' 0 4 = BitVec.allOnes 4)
    (hp : p.extractLsb' 0 4 = 0#4) : jField w = 0 := by
  rw [jField, field_of_masked h 0 4 hm, hp]; rfl

/-- A word with bits 16:0 zero is the format R word of its fields. -/
theorem formatR_eq {w : Word} {op : Nat} {d a b : Fin 8} (ho : op < 64)
    (hop : opField w = BitVec.ofNat 6 op) (hd : dField w = d)
    (ha : aField w = a) (hb : bField w = b) (hz : w.toNat / 2 ^ 0 % 2 ^ 17 = 0) : formatR op d a b = w := by
  subst hd ha hb
  have hw := w.isLt
  have hopn : w.toNat / 2 ^ 26 = op % 2 ^ 6 := by rw [← opField_toNat, hop, BitVec.toNat_ofNat]
  apply BitVec.eq_of_toNat_eq
  rw [formatR_toNat ho, dField_val, aField_val, bField_val]
  omega

/-- A word with bits 22:21 zero is the format I word of its fields. -/
theorem formatI_eq {w : Word} {op : Nat} {d : Fin 8} {len : Nat} {imm : Row} (ho : op < 64)
    (hop : opField w = BitVec.ofNat 6 op) (hd : dField w = d) (hl : lField w = len) (hi : immField w = imm)
    (hz : w.toNat / 2 ^ 21 % 2 ^ 2 = 0) :
    formatI op d len imm = w := by
  subst hd hl hi
  have hw := w.isLt
  have hopn : w.toNat / 2 ^ 26 = op % 2 ^ 6 := by rw [← opField_toNat, hop, BitVec.toNat_ofNat]
  have hlen : lField w < 32 := by rw [lField_eq]; omega
  apply BitVec.eq_of_toNat_eq
  rw [formatI_toNat ho hlen, dField_val, lField_eq, immField_toNat]
  omega

/-- A word with bits 19:8 zero is the format X word of its fields. -/
theorem formatX_eq {w : Word} {op : Nat} {d a : Fin 8} {i j : Nat} (ho : op < 64)
    (hop : opField w = BitVec.ofNat 6 op) (hd : dField w = d)
    (ha : aField w = a) (hi : iField w = i) (hj : jField w = j) (hz : w.toNat / 2 ^ 8 % 2 ^ 12 = 0) :
    formatX op d a i j = w := by
  subst hd ha hi hj
  have hw := w.isLt
  have hopn : w.toNat / 2 ^ 26 = op % 2 ^ 6 := by rw [← opField_toNat, hop, BitVec.toNat_ofNat]
  have hi : iField w < 16 := by rw [iField_eq]; omega
  have hj : jField w < 16 := by rw [jField_eq]; omega
  apply BitVec.eq_of_toNat_eq
  rw [formatX_toNat ho hi hj, dField_val, aField_val, iField_eq, jField_eq]
  omega

/-- Encoding undoes decoding. -/
theorem encode_of_decode {w : Word} {i : Instr} (h : decode w = .ok i) : encode i = w := by
  unfold decode at h
  split at h
  case h_1 hop =>
    obtain ⟨hm, rfl⟩ := checked_ok.1 h
    exact formatI_eq (by decide) hop rfl rfl rfl (bits_of_masked hm 21 2 (by decide) (by decide))
  case h_2 hop =>
    obtain ⟨hm, rfl⟩ := checked_ok.1 h
    exact formatR_eq (by decide) hop (dField_of_masked hm (by decide) (by decide)) rfl
      (bField_of_masked hm (by decide) (by decide)) (bits_of_masked hm 0 17 (by decide) (by decide))
  case h_3 hop =>
    obtain ⟨hm, rfl⟩ := checked_ok.1 h
    exact formatR_eq (by decide) hop rfl rfl rfl (bits_of_masked hm 0 17 (by decide) (by decide))
  case h_4 hop =>
    obtain ⟨hm, rfl⟩ := checked_ok.1 h
    exact formatR_eq (by decide) hop rfl rfl rfl (bits_of_masked hm 0 17 (by decide) (by decide))
  case h_5 hop =>
    obtain ⟨hm, rfl⟩ := checked_ok.1 h
    exact formatR_eq (by decide) hop rfl rfl rfl (bits_of_masked hm 0 17 (by decide) (by decide))
  case h_6 hop =>
    obtain ⟨hm, rfl⟩ := checked_ok.1 h
    exact formatI_eq (by decide) hop rfl rfl (field_of_masked hm 0 16 (by decide))
      (bits_of_masked hm 21 2 (by decide) (by decide))
  case h_7 hop =>
    obtain ⟨hm, rfl⟩ := checked_ok.1 h
    exact formatR_eq (by decide) hop rfl rfl (bField_of_masked hm (by decide) (by decide))
      (bits_of_masked hm 0 17 (by decide) (by decide))
  case h_8 hop =>
    obtain ⟨hm, rfl⟩ := checked_ok.1 h
    exact formatX_eq (by decide) hop rfl rfl rfl (jField_of_masked hm (by decide) (by decide))
      (bits_of_masked hm 8 12 (by decide) (by decide))
  case h_9 hop =>
    obtain ⟨hm, rfl⟩ := checked_ok.1 h
    exact formatX_eq (by decide) hop rfl rfl rfl (jField_of_masked hm (by decide) (by decide))
      (bits_of_masked hm 8 12 (by decide) (by decide))
  case h_10 hop =>
    obtain ⟨hm, rfl⟩ := checked_ok.1 h
    exact formatX_eq (by decide) hop rfl (aField_of_masked hm (by decide) (by decide)) rfl rfl
      (bits_of_masked hm 8 12 (by decide) (by decide))
  case h_11 hop =>
    obtain ⟨hm, rfl⟩ := checked_ok.1 h
    exact formatX_eq (by decide) hop rfl (aField_of_masked hm (by decide) (by decide)) rfl rfl
      (bits_of_masked hm 8 12 (by decide) (by decide))
  case h_12 hop =>
    obtain ⟨hm, rfl⟩ := checked_ok.1 h
    exact formatR_eq (by decide) hop rfl rfl (bField_of_masked hm (by decide) (by decide))
      (bits_of_masked hm 0 17 (by decide) (by decide))
  case h_13 => cases h

end Sys2Proof

namespace Sys2Proof.Machine

/-! ### Taking an event off the agenda -/

section
variable (s : State)

@[simp] theorem popEvent_vr : (popEvent s).vr = s.vr := rfl
@[simp] theorem popEvent_mr : (popEvent s).mr = s.mr := rfl
@[simp] theorem popEvent_ni : (popEvent s).ni = s.ni := rfl
@[simp] theorem popEvent_err : (popEvent s).err = s.err := rfl
@[simp] theorem popEvent_result : (popEvent s).result = s.result := rfl
@[simp] theorem popEvent_errcmd : (popEvent s).errcmd = s.errcmd := rfl
@[simp] theorem popEvent_pending : (popEvent s).pending = s.pending := rfl
@[simp] theorem popEvent_agenda : (popEvent s).agenda = s.agenda.tail := rfl
@[simp] theorem popEvent_readLog : (popEvent s).readLog = s.readLog := rfl
@[simp] theorem popEvent_draws : (popEvent s).draws = s.draws := rfl
@[simp] theorem getV_popEvent (r : VReg) : (popEvent s).getV r = s.getV r := rfl
@[simp] theorem getM_popEvent (r : MReg) : (popEvent s).getM r = s.getM r := rfl

end

section
variable {s t : State}

theorem popEvent_of_nil (h : s.agenda = []) : popEvent s = s := by
  cases s
  simp_all [popEvent]

theorem withAgenda_eq_popEvent {e : Event} {es : List Event} (h : s.agenda = e :: es) :
    s.withAgenda es = popEvent s := by simp [popEvent, State.withAgenda, h]

/-- On its turn the block steps, with the event that gave the turn taken off the agenda. -/
theorem step_of_blockTurnNext (h : BlockTurnNext s) : step s = blockStep (popEvent s) := by
  rcases h with h | ⟨es, h⟩
  · rw [step_nil h, popEvent_of_nil h]
  · rw [step_blockTurn h, withAgenda_eq_popEvent h]

/-! ### What a recorded error leaves alone -/

@[simp] theorem getV_raiseError (c : ErrorCode) (w : Word) (r : VReg) : (s.raiseError c w).getV r = s.getV r := by
  simp [State.getV]

@[simp] theorem getM_raiseError (c : ErrorCode) (w : Word) (r : MReg) : (s.raiseError c w).getM r = s.getM r := by
  simp [State.getM]

/-- ERR and ERRCMD after an error: as they were, or (only if ERR was 0) ERRCMD holds the word. -/
theorem raiseError_record (c : ErrorCode) (w : Word) :
    ((s.raiseError c w).err = s.err ∧ (s.raiseError c w).errcmd = s.errcmd) ∨
      (s.err = 0#4 ∧ (s.raiseError c w).errcmd = w) := by
  rcases s.raiseError_cases c w with ⟨_, e⟩ | ⟨h, e⟩ <;> rw [e]
  · exact .inl ⟨rfl, rfl⟩
  · exact .inr ⟨h, rfl⟩

theorem afterError_eq_raiseError (c : ErrorCode) (w : Word) : afterError s c w = s.raiseError c w := rfl

/-! ### Empty operands (10_state.md R18) -/

/-- A rule whose body ends in error c makes the command raise c. -/
theorem raisesError_of_body {i : Instr} {c : ErrorCode} {r : Except ErrorCode State} (he : exec i s = finish i s r)
    (hr : r = .error c) : RaisesError i s c := by
  rw [RaisesError, he, hr, finish_error, afterError_eq_raiseError]

theorem bind_vecOperand_empty {α : Type} {r : VReg} (h : s.getV r = none) (f : VecVal → Except ErrorCode α) :
    (vecOperand s r >>= f) = .error .emptyOperand := by
  rw [vecOperand_of_none h, bind_error]

theorem bind_matOperand_empty {α : Type} {r : MReg} (h : s.getM r = none) (f : MatVal → Except ErrorCode α) :
    (matOperand s r >>= f) = .error .emptyOperand := by
  rw [matOperand_of_none h, bind_error]

/-- If the rule ends in EMPTY_OPERAND after reading a vector operand, it does so whatever that operand's cell holds. -/
theorem bind_vecOperand_of_rest {α : Type} {r : VReg} {f : VecVal → Except ErrorCode α}
    (h : ∀ x, f x = .error .emptyOperand) : (vecOperand s r >>= f) = .error .emptyOperand := by
  cases hr : s.getV r with
  | none => exact bind_vecOperand_empty hr f
  | some x => rw [vecOperand_of_some hr, bind_ok, h]

/-- Two vector operands, one of them Empty. -/
theorem bind_vec_vec_empty {α : Type} {a b : VReg} {f : VecVal → VecVal → Except ErrorCode α}
    (h : s.getV a = none ∨ s.getV b = none) :
    (vecOperand s a >>= fun x => vecOperand s b >>= f x) = .error .emptyOperand := by
  rcases h with h | h
  · exact bind_vecOperand_empty h _
  · exact bind_vecOperand_of_rest fun x => bind_vecOperand_empty h _

/-- A vector and a matrix operand, one of them Empty. -/
theorem bind_vec_mat_empty {α : Type} {a : VReg} {b : MReg} {f : VecVal → MatVal → Except ErrorCode α}
    (h : s.getV a = none ∨ s.getM b = none) :
    (vecOperand s a >>= fun x => matOperand s b >>= f x) = .error .emptyOperand := by
  rcases h with h | h
  · exact bind_vecOperand_empty h _
  · exact bind_vecOperand_of_rest fun x => bind_matOperand_empty h _

/-- Settles O10, by the command: its operands are the first thing its rule reads, and LDV and IDENT have none. -/
theorem emptyOperandIsNeverRead : Obligations.EmptyOperandIsNeverRead := by
  intro i s h
  cases i <;> simp [emptyApplies, readsVec, readsMat] at h
  case rdv => exact raisesError_of_body rfl (bind_vecOperand_empty h _)
  case vxor => exact raisesError_of_body rfl (bind_vec_vec_empty h)
  case vdot => exact raisesError_of_body rfl (bind_vec_vec_empty h)
  case vmul => exact raisesError_of_body rfl (bind_vec_mat_empty h)
  case mmov => exact raisesError_of_body rfl (bind_matOperand_empty h _)
  case mwr => exact raisesError_of_body rfl (bind_vec_mat_empty h)
  case mrd => exact raisesError_of_body rfl (bind_matOperand_empty h _)
  case swapr => exact raisesError_of_body rfl (bind_matOperand_empty h _)
  case xorr => exact raisesError_of_body rfl (bind_matOperand_empty h _)
  case inv => exact raisesError_of_body rfl (bind_matOperand_empty h _)

/-! ### The errors of a command (60_exceptions.md R99) -/

/-- A rule that completes leaves ERR as it was, and one that fails does so with an error a command has of its own. -/
def EndsInOwnError (s : State) : Except ErrorCode State → Prop
  | .ok u => u.err = s.err
  | .error c => c ≠ .overrun

theorem endsInOwnError_require {p : Prop} [Decidable p] {c : ErrorCode} {f : Unit → Except ErrorCode State}
    (hc : c ≠ .overrun) (h : EndsInOwnError s (f ())) : EndsInOwnError s (require p c >>= f) := by
  by_cases hp : p
  · rwa [require_of c hp, bind_ok]
  · rwa [require_of_not c hp, bind_error]

theorem endsInOwnError_vecOperand {r : VReg} {f : VecVal → Except ErrorCode State}
    (h : ∀ x, EndsInOwnError s (f x)) : EndsInOwnError s (vecOperand s r >>= f) := by
  cases hr : s.getV r with
  | none => rw [bind_vecOperand_empty hr]; exact ErrorCode.noConfusion
  | some x => rw [vecOperand_of_some hr, bind_ok]; exact h x

theorem endsInOwnError_matOperand {r : MReg} {f : MatVal → Except ErrorCode State}
    (h : ∀ A, EndsInOwnError s (f A)) : EndsInOwnError s (matOperand s r >>= f) := by
  cases hr : s.getM r with
  | none => rw [bind_matOperand_empty hr]; exact ErrorCode.noConfusion
  | some A => rw [matOperand_of_some hr, bind_ok]; exact h A

/-- Every command is a rule that ends in `finish`: with ERR as it was, or with an error of the command's own. -/
theorem exec_eq_finish (i : Instr) (s : State) : ∃ r, exec i s = finish i s r ∧ EndsInOwnError s r := by
  cases i with
  | ldv d imm len => exact ⟨_, rfl, endsInOwnError_require (by decide) (endsInOwnError_require (by decide) rfl)⟩
  | rdv a => exact ⟨_, rfl, endsInOwnError_vecOperand fun _ => rfl⟩
  | vxor d a b =>
    exact ⟨_, rfl, endsInOwnError_vecOperand fun _ => endsInOwnError_vecOperand fun _ =>
      endsInOwnError_require (by decide) rfl⟩
  | vdot d a b =>
    exact ⟨_, rfl, endsInOwnError_vecOperand fun _ => endsInOwnError_vecOperand fun _ =>
      endsInOwnError_require (by decide) rfl⟩
  | vmul d a b =>
    exact ⟨_, rfl, endsInOwnError_vecOperand fun _ => endsInOwnError_matOperand fun _ =>
      endsInOwnError_require (by decide) rfl⟩
  | ident d n => exact ⟨_, rfl, endsInOwnError_require (by decide) rfl⟩
  | mmov d a => exact ⟨_, rfl, endsInOwnError_matOperand fun _ => rfl⟩
  | mwr d i a =>
    exact ⟨_, rfl, endsInOwnError_vecOperand fun _ => endsInOwnError_matOperand fun _ =>
      endsInOwnError_require (by decide) (endsInOwnError_require (by decide) rfl)⟩
  | mrd d a i => exact ⟨_, rfl, endsInOwnError_matOperand fun _ => endsInOwnError_require (by decide) rfl⟩
  | swapr d i j =>
    exact ⟨_, rfl, endsInOwnError_matOperand fun _ =>
      endsInOwnError_require (by decide) (endsInOwnError_require (by decide) rfl)⟩
  | xorr d i j =>
    exact ⟨_, rfl, endsInOwnError_matOperand fun _ =>
      endsInOwnError_require (by decide) (endsInOwnError_require (by decide) rfl)⟩
  | inv d a => exact ⟨_, rfl, endsInOwnError_matOperand fun _ => rfl⟩

/-- A command leaves ERR as it was, or raises an error other than OVERRUN. -/
theorem exec_err {i : Instr} (h : exec i s = .next t) :
    t.err = s.err ∨ ∃ c, c ≠ .overrun ∧ t = s.raiseError c (encode i) := by
  obtain ⟨r, he, hr⟩ := exec_eq_finish i s
  rcases finish_next.1 (he ▸ h) with rfl | ⟨c, rfl, ht⟩
  · exact .inl hr
  · exact .inr ⟨c, hr, ht⟩

/-- The codes of the errors a command can have of its own. -/
theorem code_of_ne_overrun {c : ErrorCode} (h : c ≠ .overrun) :
    c.code = 1#4 ∨ c.code = 2#4 ∨ c.code = 3#4 ∨ c.code = 4#4 := by
  cases c <;> simp_all [ErrorCode.code]

/-! ### Frames of the commands (10_state.md R19) -/

theorem sameWorld_raiseError (c : ErrorCode) (w : Word) : SameWorld s (s.raiseError c w) :=
  ⟨by simp, by simp, by simp⟩

/-- No command writes both register files. -/
theorem writesMat_of_writesVec {i : Instr} {d : VReg} (h : writesVec i = some d) : writesMat i = none := by
  cases i <;> simp_all [writesVec, writesMat]

/-- A command that writes vr[d] raises an error or writes a vector there. -/
theorem ExecResult.of_writesVec {i : Instr} {d : VReg} (hd : writesVec i = some d) (h : ExecResult i s t) :
    (∃ c, t = s.raiseError c (encode i)) ∨ ∃ x, t = s.setV d (some x) := by
  cases h with
  | error c => exact .inl ⟨c, rfl⟩
  | vector e x he =>
    obtain rfl : e = d := Option.some.inj (he.symm.trans hd)
    exact .inr ⟨x, rfl⟩
  | matrix e A he _ => simp [writesMat_of_writesVec hd] at he
  | result a x hi _ => subst hi; cases hd
  | inverse e a A hi _ => subst hi; cases hd

/-- A command other than INV that writes mr[d] raises an error or writes a matrix there. -/
theorem ExecResult.of_writesMat {i : Instr} {d : MReg} (hd : writesMat i = some d) (hn : ∀ a, i ≠ .inv d a)
    (h : ExecResult i s t) : (∃ c, t = s.raiseError c (encode i)) ∨ ∃ A, t = s.setM d (some A) := by
  cases h with
  | error c => exact .inl ⟨c, rfl⟩
  | vector e x he => simp [writesMat_of_writesVec he] at hd
  | matrix e A he _ =>
    obtain rfl : e = d := Option.some.inj (he.symm.trans hd)
    exact .inr ⟨A, rfl⟩
  | result a x hi _ => subst hi; cases hd
  | inverse e a A hi _ =>
    subst hi
    obtain rfl : e = d := Option.some.inj hd
    exact absurd rfl (hn a)

theorem ExecResult.of_rdv {a : VReg} (h : ExecResult (.rdv a) s t) :
    (∃ c, t = s.raiseError c (encode (.rdv a))) ∨ ∃ w, t = s.setResult w := by
  cases h with
  | error c => exact .inl ⟨c, rfl⟩
  | result b x _ _ => exact .inr ⟨_, rfl⟩
  | vector e x he => cases he
  | matrix e A he _ => cases he
  | inverse e b A hi _ => cases hi

theorem ExecResult.of_inv {d a : MReg} (h : ExecResult (.inv d a) s t) :
    (∃ c, t = s.raiseError c (encode (.inv d a))) ∨ ∃ c, t = s.setInverse d c := by
  cases h with
  | error c => exact .inl ⟨c, rfl⟩
  | inverse e b A hi _ => cases hi; exact .inr ⟨_, rfl⟩
  | vector e x he => cases he
  | matrix e A _ hn => exact absurd rfl (hn d a)
  | result b x hi _ => cases hi

/-- Settles O17: the command raises an error or writes one vector register. -/
theorem vectorWritersFrame : Obligations.VectorWritersFrame := by
  intro i d s t hd h
  rcases (exec_result h).of_writesVec hd with ⟨c, rfl⟩ | ⟨x, rfl⟩
  · refine ⟨fun r _ => by simp, by simp, by simp, by simp, by simp, sameWorld_raiseError c _, ?_⟩
    exact (raiseError_record c (encode i)).imp_right fun ⟨h0, he⟩ => ⟨h0, he, by simp⟩
  · exact ⟨fun r hr => getV_setV_ne s d r _ hr, rfl, rfl, rfl, rfl, ⟨rfl, rfl, rfl⟩, .inl ⟨rfl, rfl⟩⟩

/-- Settles O18: the command raises an error or writes one matrix register. -/
theorem matrixWritersFrame : Obligations.MatrixWritersFrame := by
  intro i d s t hd hn h
  rcases (exec_result h).of_writesMat hd hn with ⟨c, rfl⟩ | ⟨A, rfl⟩
  · refine ⟨fun r _ => by simp, by simp, by simp, by simp, by simp, sameWorld_raiseError c _, ?_⟩
    exact (raiseError_record c (encode i)).imp_right fun ⟨h0, he⟩ => ⟨h0, he, by simp⟩
  · exact ⟨fun r hr => getM_setM_ne s d r _ hr, rfl, rfl, rfl, rfl, ⟨rfl, rfl, rfl⟩, .inl ⟨rfl, rfl⟩⟩

/-- Settles O19: RDV and INV raise an error, or make their one write (INV's with its flag). -/
theorem rdvAndInvFrame : Obligations.RdvAndInvFrame := by
  refine ⟨fun a s t h => ?_, fun d a s t h => ?_⟩
  · rcases (exec_result h).of_rdv with ⟨c, rfl⟩ | ⟨w, rfl⟩
    · refine ⟨by simp, by simp, by simp, by simp, sameWorld_raiseError c _, ?_⟩
      exact (raiseError_record c _).imp_right fun ⟨h0, he⟩ => ⟨h0, he, by simp⟩
    · exact ⟨rfl, rfl, rfl, rfl, ⟨rfl, rfl, rfl⟩, .inl ⟨rfl, rfl⟩⟩
  · rcases (exec_result h).of_inv with ⟨c, rfl⟩ | ⟨c, rfl⟩
    · refine ⟨fun r _ => by simp, by simp, by simp, by simp, sameWorld_raiseError c _, ?_⟩
      exact (raiseError_record c _).imp_right fun ⟨h0, he⟩ => ⟨h0, he, by simp, by simp⟩
    · exact ⟨fun r hr => getM_setM_ne s d r _ hr, rfl, rfl, rfl, ⟨rfl, rfl, rfl⟩, .inl ⟨rfl, rfl⟩⟩

/-- Who writes NI among the commands: INV, with the outcome of its inversion (10_state.md R21). -/
theorem ExecResult.ni_eq {i : Instr} (h : ExecResult i s t) :
    t.ni = s.ni ∨ ∃ d a A, i = .inv d a ∧ s.getM a = some A ∧ t.ni = (gaussJordan A).isNone := by
  cases h with
  | error c => exact .inl (by simp)
  | vector d x _ => exact .inl rfl
  | matrix d A _ _ => exact .inl rfl
  | result a x _ _ => exact .inl rfl
  | inverse d a A hi hA => exact .inr ⟨d, a, A, hi, hA, by simp⟩

/-- Who writes RESULT among the commands: RDV, with its vector (10_state.md R31). -/
theorem ExecResult.result_eq {i : Instr} (h : ExecResult i s t) :
    t.result = s.result ∨ ∃ a x, i = .rdv a ∧ s.getV a = some x ∧ t.result = resultWord x := by
  cases h with
  | error c => exact .inl (by simp)
  | vector d x _ => exact .inl rfl
  | matrix d A _ _ => exact .inl rfl
  | result a x hi hx => exact .inr ⟨a, x, hi, hx, rfl⟩
  | inverse d a A _ _ => exact .inl rfl

/-- A command that starts with ERR nonzero leaves ERR and ERRCMD alone (60_exceptions.md R101). -/
theorem ExecResult.err_kept {i : Instr} (h : ExecResult i s t) (h0 : s.err ≠ 0#4) :
    t.err = s.err ∧ t.errcmd = s.errcmd := by
  cases h with
  | error c => rw [s.raiseError_of_ne c _ h0]; exact ⟨rfl, rfl⟩
  | vector d x _ => exact ⟨rfl, rfl⟩
  | matrix d A _ _ => exact ⟨rfl, rfl⟩
  | result a x _ _ => exact ⟨rfl, rfl⟩
  | inverse d a A _ _ => exact ⟨rfl, rfl⟩

/-! ### Everything a step can do -/

theorem isReset_resetBlock (s : State) : IsReset s.resetBlock := ⟨rfl, rfl, rfl, rfl, rfl, rfl, rfl⟩

/-- A reset cycle resets the block, whatever access falls in it. -/
theorem isReset_hardwareReset (during : Option Access) (s : State) : IsReset (hardwareReset during s) := by
  rcases during with _ | _ | _ <;> exact ⟨rfl, rfl, rfl, rfl, rfl, rfl, rfl⟩

/-- The next event resets the block: a clock edge with rst = 1, or a CTRL write with SRST = 1 (10_state.md R32, R33). -/
def ResetNext (s : State) : Prop :=
  (∃ during es, s.agenda = .rst during :: es) ∨
    ∃ off v es, s.agenda = .access (.write off 4 v) :: es ∧ windowReg off = .ctrl ∧ v.getLsbD 0 = true

/-- The state a step may leave. -/
inductive StepResult (s : State) : State → Prop where
  /-- Only the event is used up: an idle turn, or a write that is ignored or discarded. -/
  | quiet : StepResult s (popEvent s)
  /-- The pending command completes. -/
  | command {w : Word} {i : Instr} {u : State} (turn : BlockTurnNext s) (hp : s.pending = some w)
      (hd : decode w = .ok i) (hu : exec i (popEvent s) = .next u) : StepResult s u.retire
  /-- The pending word is illegal. -/
  | illegal {w : Word} (turn : BlockTurnNext s) (hp : s.pending = some w) :
      StepResult s ((popEvent s).raiseError .illegalCmd w).retire
  /-- A read. -/
  | answered (w : Word) : StepResult s ((popEvent s).answer w)
  /-- A read of an unspecified value. -/
  | answeredFree : StepResult s (popEvent s).answerFree
  /-- A CMD write accepted. -/
  | accepted (w : Word) : StepResult s ((popEvent s).latch w)
  /-- A CMD write dropped while BUSY = 1. -/
  | overrun {off : BitVec 5} {w : Word} {es : List Event} (ha : s.agenda = .access (.write off 4 w) :: es)
      (hr : windowReg off = .cmd) (hp : s.pending ≠ none) : StepResult s ((popEvent s).raiseError .overrun w)
  /-- A CTRL write with ERRCLR alone. -/
  | cleared {off : BitVec 5} {w : Word} {es : List Event} (ha : s.agenda = .access (.write off 4 w) :: es)
      (hr : windowReg off = .ctrl) : StepResult s (popEvent s).clearError
  /-- A reset, by either way. -/
  | reset {t : State} (hs : ResetNext s) (ht : IsReset t) : StepResult s t

theorem blockStep_result (turn : BlockTurnNext s) (h : blockStep (popEvent s) = .next t) : StepResult s t := by
  cases hp : s.pending with
  | none =>
    rw [blockStep_none (s := popEvent s) hp] at h
    cases h
    exact .quiet
  | some w =>
    rw [blockStep_some (s := popEvent s) hp] at h
    cases hd : decode w with
    | ok i =>
      obtain ⟨u, hu⟩ := exec_next i (popEvent s)
      rw [executeWord_ok hd, hu, retireOutcome_next] at h
      cases h
      exact .command turn hp hd hu
    | error e =>
      rw [executeWord_error hd] at h
      cases h
      exact .illegal turn hp

theorem hostRead_result (r : WindowReg) : StepResult s (hostRead r (popEvent s)) := by
  rcases hostRead_cases r (popEvent s) with ⟨e, _⟩ | ⟨e, _⟩ <;> rw [e]
  · exact .answeredFree
  · exact .answered _

theorem hostWrite_result {off : BitVec 5} {w : Word} {es : List Event}
    (ha : s.agenda = .access (.write off 4 w) :: es) :
    StepResult s (hostWrite (windowReg off) w (popEvent s)) := by
  rcases hostWrite_cases (windowReg off) w (popEvent s) with ⟨hr, e⟩ | ⟨hr, e⟩ | ⟨_, _, e⟩ <;> rw [e]
  · rcases offerCommand_cases w (popEvent s) with ⟨hp, e⟩ | ⟨_, _, e⟩ | ⟨_, _, e⟩ <;> rw [e]
    · exact .overrun ha hr hp
    · exact .quiet
    · exact .accepted w
  · rcases writeCtrl_cases w (popEvent s) with ⟨hw, e⟩ | ⟨_, _, e⟩ | ⟨_, _, e⟩ <;> rw [e]
    · exact .reset (.inr ⟨off, w, es, ha, hr, hw⟩) (isReset_resetBlock _)
    · exact .cleared ha hr
    · exact .quiet
  · exact .quiet

/-- The inversion of `step`. -/
theorem step_result (h : step s = .next t) : StepResult s t := by
  cases ha : s.agenda with
  | nil => exact blockStep_result (.inl ha) (step_of_blockTurnNext (.inl ha) ▸ h)
  | cons e es =>
    cases e with
    | blockTurn => exact blockStep_result (.inr ⟨es, ha⟩) (step_of_blockTurnNext (.inr ⟨es, ha⟩) ▸ h)
    | access a =>
      rw [step_access ha, withAgenda_eq_popEvent ha] at h
      rcases hostAccess_cases a (popEvent s) with ⟨_, e⟩ | ⟨off, _, e⟩ | ⟨off, w, rfl, e⟩ <;> rw [e] at h <;> cases h
      · exact hostRead_result _
      · exact hostWrite_result ha
    | rst during =>
      rw [step_rst ha] at h
      cases h
      exact .reset (.inl ⟨during, es, ha⟩) (isReset_hardwareReset during _)

/-! ### ERR, ERRCMD, NI and RESULT over a step -/

/-- Settles O13, by what the step did: only a pending command, an illegal pending word and a dropped CMD write record an
error, each with its own word. -/
theorem errcmdHoldsTheOffendingWord : Obligations.ErrcmdHoldsTheOffendingWord := by
  intro s t h h0 hne
  have h0' : (popEvent s).err = 0#4 := h0
  cases step_result h with
  | @command w i u turn hp hd hu =>
    rcases exec_err hu with he | ⟨c, hc, rfl⟩
    · exact absurd (he.trans h0) hne
    · rw [State.raiseError_of_zero _ _ _ h0', encode_of_decode hd]
      exact .inl ⟨turn, hp, code_of_ne_overrun hc⟩
  | illegal turn hp =>
    rw [State.raiseError_of_zero _ _ _ h0']
    exact .inl ⟨turn, hp, .inr (.inr (.inl rfl))⟩
  | @overrun off w es ha hr hp =>
    rw [State.raiseError_of_zero _ _ _ h0']
    exact .inr ⟨hp, rfl, off, es, ha, hr⟩
  | quiet => exact absurd h0 hne
  | answered w => exact absurd h0 hne
  | answeredFree => exact absurd h0 hne
  | accepted w => exact absurd h0 hne
  | cleared _ _ => exact absurd rfl hne
  | reset _ ht => exact absurd ht.err hne

/-- An event that keeps an error is no reset and no CTRL write. -/
theorem not_keepsError_of_ctrl {off : BitVec 5} {n : Nat} {w : Word} (h : windowReg off = .ctrl) :
    Event.keepsError (.access (.write off n w)) = false := by simp [Event.keepsError, h]

/-- Settles O14, by what the step did: with ERR nonzero no error is recorded, and the rest that writes ERR or ERRCMD is a
reset or a CTRL write. -/
theorem errIsStickyUntilCleared : Obligations.ErrIsStickyUntilCleared := by
  intro s t h h0 hk
  have h0' : (popEvent s).err ≠ 0#4 := h0
  cases step_result h with
  | command _ _ _ hu => exact (exec_result hu).err_kept h0'
  | illegal _ _ => rw [State.raiseError_of_ne _ _ _ h0']; exact ⟨rfl, rfl⟩
  | overrun _ _ _ => rw [State.raiseError_of_ne _ _ _ h0']; exact ⟨rfl, rfl⟩
  | quiet => exact ⟨rfl, rfl⟩
  | answered w => exact ⟨rfl, rfl⟩
  | answeredFree => exact ⟨rfl, rfl⟩
  | accepted w => exact ⟨rfl, rfl⟩
  | cleared ha hr => simp [ha, not_keepsError_of_ctrl hr] at hk
  | reset hs _ =>
    rcases hs with ⟨during, es, ha⟩ | ⟨off, v, es, ha, hr, _⟩
    · simp [ha, Event.keepsError] at hk
    · simp [ha, not_keepsError_of_ctrl hr] at hk

/-- Settles O40, by what the step did. -/
theorem onlyInvAndResetChangeNi : Obligations.OnlyInvAndResetChangeNi := by
  intro s t h hne
  cases step_result h with
  | @command w i u turn hp hd hu =>
    rcases (exec_result hu).ni_eq with he | ⟨d, a, A, rfl, hA, hn⟩
    · exact absurd he hne
    · exact .inl ⟨turn, w, d, a, A, hp, hd, hA, hn⟩
  | reset hs ht => exact .inr ⟨ht, hs⟩
  | illegal _ _ => exact absurd (by simp) hne
  | overrun _ _ _ => exact absurd (by simp) hne
  | quiet => exact absurd rfl hne
  | answered w => exact absurd rfl hne
  | answeredFree => exact absurd rfl hne
  | accepted w => exact absurd rfl hne
  | cleared _ _ => exact absurd rfl hne

/-- Settles O41, by what the step did. -/
theorem onlyRdvAndResetChangeResult : Obligations.OnlyRdvAndResetChangeResult := by
  intro s t h hne
  cases step_result h with
  | @command w i u turn hp hd hu =>
    rcases (exec_result hu).result_eq with he | ⟨a, x, rfl, hx, hw⟩
    · exact absurd he hne
    · exact .inl ⟨turn, w, a, x, hp, hd, hx, hw⟩
  | reset hs ht => exact .inr ⟨ht, hs⟩
  | illegal _ _ => exact absurd (by simp) hne
  | overrun _ _ _ => exact absurd (by simp) hne
  | quiet => exact absurd rfl hne
  | answered w => exact absurd rfl hne
  | answeredFree => exact absurd rfl hne
  | accepted w => exact absurd rfl hne
  | cleared _ _ => exact absurd rfl hne

/-! ### The window (10_state.md R24 to R36) -/

@[simp] theorem windowReg_regOffset (r : WindowReg) : windowReg (regOffset r) = r := by cases r <;> rfl

theorem readEvent_supported (r : WindowReg) : (Access.read (regOffset r) 4).supported = true := by cases r <;> rfl

theorem writeEvent_supported (r : WindowReg) (v : Word) : (Access.write (regOffset r) 4 v).supported = true := by
  cases r <;> rfl

/-- A read of a window register. -/
theorem step_readEvent {es : List Event} (r : WindowReg) (h : s.agenda = readEvent r :: es) :
    step s = .next (hostRead r (s.withAgenda es)) := by
  rw [step_access h, hostAccess, if_pos (readEvent_supported r), windowReg_regOffset]

/-- A write of a window register. -/
theorem step_writeEvent {es : List Event} {v : Word} (r : WindowReg) (h : s.agenda = writeEvent r v :: es) :
    step s = .next (hostWrite r v (s.withAgenda es)) := by
  rw [step_access h, hostAccess, if_pos (writeEvent_supported r v), windowReg_regOffset]

/-- A read is answered with the register's value, but for RESULT while BUSY = 1. -/
theorem step_readEvent_value {es : List Event} (r : WindowReg) (hr : ¬(r = .result ∧ s.busy = true))
    (h : s.agenda = readEvent r :: es) :
    step s = .next ((s.withAgenda es).answer (windowValue (s.withAgenda es) r)) := by
  rw [step_readEvent r h]
  exact congrArg Host.Outcome.next (if_neg hr)

/-- A write to a register other than CMD and CTRL is ignored (10_state.md R35, R36). -/
theorem step_writeEvent_ignored {es : List Event} {v : Word} (r : WindowReg) (hc : r ≠ .cmd) (ht : r ≠ .ctrl)
    (h : s.agenda = writeEvent r v :: es) : step s = .next { s with agenda := es } := by
  rw [step_writeEvent r h]
  rcases hostWrite_cases r v (s.withAgenda es) with ⟨e, _⟩ | ⟨e, _⟩ | ⟨_, _, e⟩
  · exact absurd e hc
  · exact absurd e ht
  · rw [e]; rfl

/-- Answering a read changes nothing in the block. -/
theorem sameBlock_answer (s : State) (es : List Event) (w : Word) : SameBlock s ((s.withAgenda es).answer w) :=
  ⟨rfl, rfl, rfl, rfl, rfl, rfl, rfl⟩

theorem status_busy (s : State) : s.status.getLsbD 0 = s.pending.isSome := by simp [State.status, State.busy]

theorem status_ni (s : State) : s.status.getLsbD 1 = s.ni := by simp [State.status]

/-- STATUS from bit 4 up is ERR, and above ERR's four bits zero. -/
theorem status_err (s : State) (k : Nat) : s.status.getLsbD (4 + k) = s.err.getLsbD k := by
  by_cases hk : k < 4
  · have h32 : 4 + k < 32 ∧ k < 32 := by omega
    simp [State.status, h32]
  · rw [BitVec.getLsbD_of_ge s.err k (by omega)]
    simp [State.status, BitVec.getLsbD_of_ge s.err k (by omega)]

/-- Settles O42. -/
theorem idReadsItsConstant : Obligations.IdReadsItsConstant := fun s es =>
  ⟨fun h => ⟨_, step_readEvent_value .id (by simp) h, sameBlock_answer s es _, rfl, rfl⟩,
    fun _ h => step_writeEvent_ignored .id (by decide) (by decide) h, by decide⟩

/-- Settles O43: the word answered is `State.status`, read bit by bit. -/
theorem statusReadsErrNiBusy : Obligations.StatusReadsErrNiBusy := by
  refine fun s es => ⟨fun h => ?_, fun _ h => step_writeEvent_ignored .status (by decide) (by decide) h⟩
  refine ⟨_, s.status, step_readEvent_value .status (by simp) h, sameBlock_answer s es _, rfl, rfl, ?_, ?_, ?_, ?_, ?_⟩
  · exact status_busy s
  · exact status_ni s
  · apply BitVec.eq_of_getLsbD_eq
    intro k hk
    interval_cases k <;> simp [State.status]
  · apply BitVec.eq_of_getLsbD_eq
    intro k hk
    rw [BitVec.getLsbD_extractLsb', status_err, decide_eq_true hk, Bool.true_and]
  · apply BitVec.eq_of_getLsbD_eq
    intro k hk
    rw [BitVec.getLsbD_extractLsb', show 8 + k = 4 + (4 + k) by omega, status_err,
      BitVec.getLsbD_of_ge s.err (4 + k) (by omega), Bool.and_false, BitVec.getLsbD_zero]

/-- Settles O44. -/
theorem resultAndErrcmdReadTheirValue : Obligations.ResultAndErrcmdReadTheirValue := by
  refine fun s es => ⟨fun h hp => ?_, fun h => ?_, fun off v ho h => ?_⟩
  · exact step_readEvent_value .result (by simp [State.busy, hp]) h
  · exact step_readEvent_value .errcmd (by simp) h
  · rcases ho with rfl | rfl
    · exact step_writeEvent_ignored .result (by decide) (by decide) h
    · exact step_writeEvent_ignored .errcmd (by decide) (by decide) h

/-- Settles O46, register by register. -/
theorem accessRightsOfTheWindow : Obligations.AccessRightsOfTheWindow := by
  refine fun s off es => ⟨fun ho h => ?_, fun v ho h => ?_⟩
  · rcases ho with rfl | rfl | rfl | rfl
    · exact step_readEvent_value .cmd (by simp) h
    · exact step_readEvent_value .ctrl (by simp) h
    · exact step_readEvent_value .reserved18 (by simp) h
    · exact step_readEvent_value .reserved1C (by simp) h
  · rcases ho with rfl | rfl | rfl | rfl | rfl | rfl
    · exact step_writeEvent_ignored .id (by decide) (by decide) h
    · exact step_writeEvent_ignored .status (by decide) (by decide) h
    · exact step_writeEvent_ignored .result (by decide) (by decide) h
    · exact step_writeEvent_ignored .errcmd (by decide) (by decide) h
    · exact step_writeEvent_ignored .reserved18 (by decide) (by decide) h
    · exact step_writeEvent_ignored .reserved1C (by decide) (by decide) h

/-! ### CTRL and reset (10_state.md R32, R33, R37) -/

theorem writeCtrl_of_srst {v : Word} (h : v.getLsbD 0 = true) : writeCtrl v s = s.resetBlock := if_pos h

theorem writeCtrl_of_errclr {v : Word} (h0 : v.getLsbD 0 = false) (h1 : v.getLsbD 1 = true) :
    writeCtrl v s = s.clearError := by
  rw [writeCtrl, h0, h1]; rfl

theorem writeCtrl_of_neither {v : Word} (h0 : v.getLsbD 0 = false) (h1 : v.getLsbD 1 = false) :
    writeCtrl v s = s := by
  rw [writeCtrl, h0, h1]; rfl

/-- Settles O49, by the two bits of the word written. -/
theorem ctrlWriteResetsOrClears : Obligations.CtrlWriteResetsOrClears := by
  intro s v es h
  have hs : step s = .next (writeCtrl v (s.withAgenda es)) := step_writeEvent .ctrl h
  refine ⟨fun h0 h1 => ?_, fun h0 => ?_, fun h0 h1 => ?_⟩
  · rw [hs, writeCtrl_of_errclr h0 h1]; rfl
  · exact ⟨_, hs.trans (congrArg _ (writeCtrl_of_srst h0)), isReset_resetBlock _, rfl, rfl, rfl⟩
  · rw [hs, writeCtrl_of_neither h0 h1]; rfl

@[simp] theorem getV_reset (r : VReg) : State.reset.getV r = none := by
  simp [State.getV, State.reset, Vector.get_eq_getElem]

@[simp] theorem getM_reset (r : MReg) : State.reset.getM r = none := by
  simp [State.getM, State.reset, Vector.get_eq_getElem]

/-- Settles O53: every entry of the table of 10_state.md R37. -/
theorem resetStateIsAsSpecified : Obligations.ResetStateIsAsSpecified :=
  ⟨getV_reset, getM_reset, rfl, rfl, rfl, rfl, rfl, by decide, rfl⟩

/-- Settles O54: resetting the reset state gives it back, and a reset establishes the invariant. -/
theorem invariantHoldsAtReset : Obligations.InvariantHoldsAtReset := State.Inv.resetBlock State.reset

end

end Sys2Proof.Machine

/-! PROOF. The host's side of the window (20_memory.md): which accesses are the block's, which are refused, and that a
read leaves the block alone. -/

namespace Sys2Proof.Machine

/-! ### The window in the host's address space (20_memory.md R42) -/

theorem windowOffset_base_add {k : Nat} (h : k < 32) : windowOffset (Config.base + k) = some (BitVec.ofNat 5 k) := by
  rw [windowOffset, if_pos (by omega), Nat.add_sub_cancel_left]

theorem windowOffset_outside {addr : Nat} (h : addr < Config.base ∨ Config.base + 0x1F < addr) :
    windowOffset addr = none := if_neg (by omega)

/-- The register is chosen by bits 4:2 of the offset alone. -/
theorem windowReg_congr {off off' : BitVec 5} (h : off.extractLsb' 2 3 = off'.extractLsb' 2 3) :
    windowReg off = windowReg off' := by rw [windowReg, h, windowReg]

/-- Settles O52: `windowOffset` answers the offset of an address in the window, and none elsewhere. -/
theorem windowIsThirtyTwoBytesAtBase : Obligations.WindowIsThirtyTwoBytesAtBase := by
  refine ⟨Nat.mul_mod_right 32 _, fun k n w hk => ?_, fun addr n w h => ?_, fun _ _ => windowReg_congr⟩
  · rw [memRead, memWrite, windowOffset_base_add hk]
    exact ⟨rfl, rfl⟩
  · rw [memRead, memWrite, windowOffset_outside h]
    exact ⟨rfl, rfl⟩

/-! ### Reads (20_memory.md R47) -/

/-- A read of any register leaves the block and the events to come alone and gives exactly one answer. -/
theorem hostRead_frame (r : WindowReg) (s : State) (es : List Event) :
    SameBlock s (hostRead r (s.withAgenda es)) ∧ (hostRead r (s.withAgenda es)).agenda = es ∧
      ∃ w, (hostRead r (s.withAgenda es)).readLog = w :: s.readLog := by
  rcases hostRead_cases r (s.withAgenda es) with ⟨e, _⟩ | ⟨e, _⟩ <;> rw [e]
  · exact ⟨⟨rfl, rfl, rfl, rfl, rfl, rfl, rfl⟩, rfl, _, rfl⟩
  · exact ⟨sameBlock_answer s es _, rfl, _, rfl⟩

/-- Settles O47: a read that steps is a supported one, and no `hostRead` writes the block. -/
theorem readsHaveNoSideEffect : Obligations.ReadsHaveNoSideEffect := by
  intro s t off n es ha h
  rw [step_access ha] at h
  rcases hostAccess_cases (.read off n) (s.withAgenda es) with ⟨_, e⟩ | ⟨_, _, e⟩ | ⟨_, _, hw, _⟩
  · cases e ▸ h
  · cases e ▸ h
    exact hostRead_frame _ s es
  · cases hw

/-! ### Where the machine stops (20_memory.md R43, 60_exceptions.md R101) -/

section
variable {s : State}

/-- An executed word, legal or not, answers with a next state. -/
theorem executeWord_next (w : Word) (s : State) : ∃ t, executeWord w s = .next t := by
  cases hd : decode w with
  | ok i =>
    obtain ⟨u, hu⟩ := exec_next i s
    exact ⟨u.retire, by rw [executeWord_ok hd, hu, retireOutcome_next]⟩
  | error e => exact ⟨_, executeWord_error hd⟩

/-- The block's turn, idle or not, answers with a next state. -/
theorem blockStep_next (s : State) : ∃ t, blockStep s = .next t := by
  cases hp : s.pending with
  | none => exact ⟨s, blockStep_none hp⟩
  | some w => exact blockStep_some hp ▸ executeWord_next w s

theorem hostAccess_of_misfit {a : Access} (h : a.Misfit) (s : State) :
    hostAccess a s = .refused (.unsupportedAccess a) :=
  if_neg (by simp [a.misfit_iff.1 h])

/-- An access that fits answers with a next state. -/
theorem hostAccess_next {a : Access} (h : ¬a.Misfit) (s : State) : ∃ t, hostAccess a s = .next t := by
  rcases hostAccess_cases a s with ⟨hs, _⟩ | ⟨_, _, e⟩ | ⟨_, _, _, e⟩
  · exact absurd (a.misfit_iff.2 hs) h
  · exact ⟨_, e⟩
  · exact ⟨_, e⟩

theorem step_of_misfit {a : Access} {es : List Event} (ha : s.agenda = .access a :: es) (h : a.Misfit) :
    step s = .refused (.unsupportedAccess a) :=
  (step_access ha).trans (hostAccess_of_misfit h _)

/-- Unless the next event is a misfit access, the machine steps. -/
theorem step_next (h : ∀ a es, s.agenda = .access a :: es → ¬a.Misfit) : ∃ t, step s = .next t := by
  cases ha : s.agenda with
  | nil => exact step_nil ha ▸ blockStep_next s
  | cons e es =>
    cases e with
    | blockTurn => exact step_blockTurn ha ▸ blockStep_next _
    | access a => exact step_access ha ▸ hostAccess_next (h a es ha) _
    | rst during => exact ⟨_, step_rst ha⟩

/-- Settles O9: a misfit access is refused, and every other event, an idle turn included, answers with a next state. -/
theorem stepStopsOnlyOnUnsupportedAccess : Obligations.StepStopsOnlyOnUnsupportedAccess := by
  refine fun s => ⟨fun a es => step_of_misfit, fun hstop => ?_, fun ⟨a, es, ha, hm⟩ ⟨t, ht⟩ => ?_⟩
  · by_contra hno
    exact hstop (step_next fun a es ha hm => hno ⟨a, es, ha, hm⟩)
  · rw [step_of_misfit ha hm] at ht
    cases ht

end

end Sys2Proof.Machine

/-! PROOF. Encoding (30_encoding.md R57 to R72): a word is a command exactly when it matches the row of its opcode, the
encoder and the decoder undo each other, an illegal word raises ILLEGAL_CMD, and EXEC runs its command once. -/

namespace Sys2Proof

/-! ### What the decoder answers with (30_encoding.md R62 to R67)

The opcode selects a row of the opcode map; a command of that row reads its operands from the word's fields. -/

/-- The command in the row of i whose operands stand in the fields of w. -/
def Instr.readFrom (w : Word) : Instr → Instr
  | .ldv _ _ _ => .ldv (dField w) (immField w) (lField w)
  | .rdv _ => .rdv (aField w)
  | .vxor _ _ _ => .vxor (dField w) (aField w) (bField w)
  | .vdot _ _ _ => .vdot (dField w) (aField w) (bField w)
  | .vmul _ _ _ => .vmul (dField w) (aField w) (bField w)
  | .ident _ _ => .ident (dField w) (lField w)
  | .mmov _ _ => .mmov (dField w) (aField w)
  | .mwr _ _ _ => .mwr (dField w) (iField w) (aField w)
  | .mrd _ _ _ => .mrd (dField w) (aField w) (iField w)
  | .swapr _ _ _ => .swapr (dField w) (iField w) (jField w)
  | .xorr _ _ _ => .xorr (dField w) (iField w) (jField w)
  | .inv _ _ => .inv (dField w) (aField w)

@[simp] theorem Instr.row_readFrom (w : Word) (i : Instr) : (i.readFrom w).row = i.row := by cases i <;> rfl

/-- What stands in a field fits it. -/
theorem Instr.wellFormed_readFrom (w : Word) (i : Instr) : (i.readFrom w).wellFormed = true := by
  have hl : lField w < 32 := BitVec.isLt _
  have hi : iField w < 16 := BitVec.isLt _
  have hj : jField w < 16 := BitVec.isLt _
  cases i <;> simp [readFrom, wellFormed, fitsL, fitsRow, hl, hi, hj]

theorem Instr.row_mem_opcodeTable (i : Instr) : i.row ∈ opcodeTable := by cases i <;> simp [row, opcodeTable]

/-- Every row of the opcode map has a command. -/
theorem exists_instr_of_row {r : TableRow} (hr : r ∈ opcodeTable) : ∃ i : Instr, i.row = r := by
  simp only [opcodeTable, List.mem_cons, List.not_mem_nil, or_false] at hr
  rcases hr with rfl | rfl | rfl | rfl | rfl | rfl | rfl | rfl | rfl | rfl | rfl | rfl
  exacts [⟨.ldv 0 0 0, rfl⟩, ⟨.rdv 0, rfl⟩, ⟨.vxor 0 0 0, rfl⟩, ⟨.vdot 0 0 0, rfl⟩, ⟨.vmul 0 0 0, rfl⟩,
    ⟨.ident 0 0, rfl⟩, ⟨.mmov 0 0, rfl⟩, ⟨.mwr 0 0 0, rfl⟩, ⟨.mrd 0 0 0, rfl⟩, ⟨.swapr 0 0 0, rfl⟩,
    ⟨.xorr 0 0 0, rfl⟩, ⟨.inv 0 0, rfl⟩]

/-- A word with the opcode of a command's row is decoded by that row. -/
theorem decode_of_opField {w : Word} {i : Instr} (h : opField w = i.row.op) :
    decode w = checked i.row w (i.readFrom w) := by
  cases i <;> rw [decode, h] <;> rfl

/-- A word whose opcode no row has is rejected. -/
theorem decode_of_unassigned {w : Word} (h : ∀ r ∈ opcodeTable, opField w ≠ r.op) :
    decode w = .error (.unassignedOpcode (opField w)) := by
  simp only [opcodeTable, List.forall_mem_cons] at h
  obtain ⟨h1, h2, h3, h4, h5, h8, h9, hA, hB, hC, hD, hE, _⟩ := h
  unfold decode
  split
  case h_13 => rfl
  all_goals contradiction

/-- A word with the opcode of a row is a well-formed command of that row if its reserved bits are zero. -/
theorem decode_of_row {w : Word} {r : TableRow} (hr : r ∈ opcodeTable) (h : opField w = r.op) :
    ∃ i : Instr, i.row = r ∧ i.wellFormed = true ∧ decode w = checked r w i := by
  obtain ⟨i, rfl⟩ := exists_instr_of_row hr
  exact ⟨i.readFrom w, i.row_readFrom w, i.wellFormed_readFrom w, decode_of_opField h⟩

theorem checked_of_not_masked {r : TableRow} {w : Word} (i : Instr) (h : w &&& r.mask ≠ r.pattern) :
    checked r w i = .error (.reservedBits w) := if_neg h

/-- No two rows have the same opcode. -/
theorem row_eq_of_op_eq : ∀ r ∈ opcodeTable, ∀ q ∈ opcodeTable, r.op = q.op → r = q := by decide

/-- A row's mask covers the opcode, and its pattern holds the row's opcode there. -/
theorem opcode_in_row : ∀ r ∈ opcodeTable,
    r.mask.extractLsb' 26 6 = BitVec.allOnes 6 ∧ r.pattern.extractLsb' 26 6 = r.op := by decide

/-- A word that matches a row has the row's opcode. -/
theorem opField_of_masked {w : Word} {r : TableRow} (hr : r ∈ opcodeTable) (h : w &&& r.mask = r.pattern) :
    opField w = r.op := by
  obtain ⟨hm, hp⟩ := opcode_in_row r hr
  exact (field_of_masked h 26 6 hm).trans hp

/-! ### Decoding undoes encoding (30_encoding.md R71) -/

/-- The word of a well-formed command matches the command's row. -/
theorem encode_masked {i : Instr} (h : i.wellFormed = true) : encode i &&& i.row.mask = i.row.pattern := by
  cases i with
  | ldv d imm len => exact Laws.EncodingFitsRow.ldv d imm len h
  | rdv a => exact Laws.EncodingFitsRow.rdv a h
  | vxor d a b => exact Laws.EncodingFitsRow.vxor d a b h
  | vdot d a b => exact Laws.EncodingFitsRow.vdot d a b h
  | vmul d a b => exact Laws.EncodingFitsRow.vmul d a b h
  | ident d dim => exact Laws.EncodingFitsRow.ident d dim h
  | mmov d a => exact Laws.EncodingFitsRow.mmov d a h
  | mwr d i a => exact Laws.EncodingFitsRow.mwr d i a h
  | mrd d a i => exact Laws.EncodingFitsRow.mrd d a i h
  | swapr d i j => exact Laws.EncodingFitsRow.swapr d i j h
  | xorr d i j => exact Laws.EncodingFitsRow.xorr d i j h
  | inv d a => exact Laws.EncodingFitsRow.inv d a h

/-- The fields of a well-formed command's word hold its operands. -/
theorem readFrom_encode {i : Instr} (h : i.wellFormed = true) : i.readFrom (encode i) = i := by
  cases i with
  | ldv d imm len =>
    obtain ⟨_, hd, hl, hi⟩ := formatI_fields (op := 0x01) (by decide) (of_decide_eq_true h) d imm
    simp only [encode, Instr.readFrom, hd, hl, hi]
  | ident d dim =>
    obtain ⟨_, hd, hl, _⟩ := formatI_fields (op := 0x08) (by decide) (of_decide_eq_true h) d 0#16
    simp only [encode, Instr.readFrom, hd, hl]
  | rdv a =>
    obtain ⟨_, _, ha, _⟩ := formatR_fields (op := 0x02) (by decide) 0 a 0
    simp only [encode, Instr.readFrom, ha]
  | vxor d a b =>
    obtain ⟨_, hd, ha, hb⟩ := formatR_fields (op := 0x03) (by decide) d a b
    simp only [encode, Instr.readFrom, hd, ha, hb]
  | vdot d a b =>
    obtain ⟨_, hd, ha, hb⟩ := formatR_fields (op := 0x04) (by decide) d a b
    simp only [encode, Instr.readFrom, hd, ha, hb]
  | vmul d a b =>
    obtain ⟨_, hd, ha, hb⟩ := formatR_fields (op := 0x05) (by decide) d a b
    simp only [encode, Instr.readFrom, hd, ha, hb]
  | mmov d a =>
    obtain ⟨_, hd, ha, _⟩ := formatR_fields (op := 0x09) (by decide) d a 0
    simp only [encode, Instr.readFrom, hd, ha]
  | inv d a =>
    obtain ⟨_, hd, ha, _⟩ := formatR_fields (op := 0x0E) (by decide) d a 0
    simp only [encode, Instr.readFrom, hd, ha]
  | mwr d i a =>
    obtain ⟨_, hd, ha, hi, _⟩ := formatX_fields (op := 0x0A) (j := 0) (by decide) (of_decide_eq_true h) (by decide) d a
    simp only [encode, Instr.readFrom, hd, ha, hi]
  | mrd d a i =>
    obtain ⟨_, hd, ha, hi, _⟩ := formatX_fields (op := 0x0B) (j := 0) (by decide) (of_decide_eq_true h) (by decide) d a
    simp only [encode, Instr.readFrom, hd, ha, hi]
  | swapr d i j =>
    obtain ⟨hi, hj⟩ := Bool.and_eq_true_iff.1 h
    obtain ⟨_, hd, _, hi, hj⟩ :=
      formatX_fields (op := 0x0C) (by decide) (of_decide_eq_true hi) (of_decide_eq_true hj) d 0
    simp only [encode, Instr.readFrom, hd, hi, hj]
  | xorr d i j =>
    obtain ⟨hi, hj⟩ := Bool.and_eq_true_iff.1 h
    obtain ⟨_, hd, _, hi, hj⟩ :=
      formatX_fields (op := 0x0D) (by decide) (of_decide_eq_true hi) (of_decide_eq_true hj) d 0
    simp only [encode, Instr.readFrom, hd, hi, hj]

theorem decode_encode {i : Instr} (h : i.wellFormed = true) : decode (encode i) = .ok i := by
  have hm := encode_masked h
  rw [decode_of_opField (opField_of_masked i.row_mem_opcodeTable hm), readFrom_encode h]
  exact checked_ok.2 ⟨hm, rfl⟩

/-- Settles O1: the word of a command matches the command's row, and its fields hold the operands. -/
theorem decodeOfEncodeIsTheCommand : Obligations.DecodeOfEncodeIsTheCommand := fun _ => decode_encode

/-! ### Every word is one command or illegal (30_encoding.md R64, R67) -/

/-- A word that decodes matches its command's row, and every operand fits its field. -/
theorem decode_ok {w : Word} {i : Instr} (h : decode w = .ok i) :
    i.wellFormed = true ∧ w &&& i.row.mask = i.row.pattern := by
  have hwf : i.wellFormed = true := by
    by_cases ha : ∃ r ∈ opcodeTable, opField w = r.op
    · obtain ⟨r, hr, hop⟩ := ha
      obtain ⟨k, _, hk, e⟩ := decode_of_row hr hop
      exact (checked_ok.1 (e ▸ h)).2 ▸ hk
    · have e := decode_of_unassigned (w := w) (by simpa using ha)
      cases e ▸ h
  exact ⟨hwf, encode_of_decode h ▸ encode_masked hwf⟩

/-- Settles O2: the fields of a word fit, and a word that matches its row has no other bits. -/
theorem encodeOfDecodedIsTheWord : Obligations.EncodeOfDecodedIsTheWord := fun _ _ h =>
  ⟨(decode_ok h).1, encode_of_decode h⟩

/-- A word matches one row at most. -/
theorem row_eq_of_masked {w : Word} {r q : TableRow} (hr : r ∈ opcodeTable) (hq : q ∈ opcodeTable)
    (hwr : w &&& r.mask = r.pattern) (hwq : w &&& q.mask = q.pattern) : r = q :=
  row_eq_of_op_eq r hr q hq ((opField_of_masked hr hwr).symm.trans (opField_of_masked hq hwq))

/-- A word decodes if it matches a row. -/
theorem decode_of_masked {w : Word} {r : TableRow} (hr : r ∈ opcodeTable) (h : w &&& r.mask = r.pattern) :
    ∃ i, decode w = .ok i := by
  obtain ⟨i, _, _, e⟩ := decode_of_row hr (opField_of_masked hr h)
  exact ⟨i, e.trans (checked_ok.2 ⟨h, rfl⟩)⟩

/-- Settles O3: the word's row is the one of the command it decodes to, and a word that matched any row would decode. -/
theorem everyWordIsOneCommandOrIllegal : Obligations.EveryWordIsOneCommandOrIllegal := by
  refine ⟨rfl, fun w => ?_⟩
  cases hd : decode w with
  | ok i =>
    have hi := i.row_mem_opcodeTable
    obtain ⟨_, hm⟩ := decode_ok hd
    exact .inl ⟨i, rfl, hi, hm, fun r hr h => row_eq_of_masked hr hi h hm⟩
  | error e =>
    refine .inr ⟨⟨e, rfl⟩, fun r hr h => ?_⟩
    obtain ⟨i, hi⟩ := decode_of_masked hr h
    cases hd ▸ hi

/-- Settles O4, by decoding each word. -/
theorem sampleWordsDecode : Obligations.SampleWordsDecode := by
  unfold Obligations.SampleWordsDecode
  decide

end Sys2Proof

namespace Sys2Proof.Machine

/-! ### An illegal word raises ILLEGAL_CMD (30_encoding.md R63, R64) -/

/-- On the block's turn a pending word that is no command raises ILLEGAL_CMD, and the latch is freed. -/
theorem step_of_illegal {s : State} {w : Word} {e : Reject} (turn : BlockTurnNext s)
    (hp : s.pending = some w) (hd : decode w = .error e) :
    step s = .next { afterError (popEvent s) .illegalCmd w with pending := none } := by
  rw [step_of_blockTurnNext turn, blockStep_some (s := popEvent s) hp, executeWord_error hd]
  rfl

/-- No row has one of the opcodes of R63. -/
theorem row_op_assigned : ∀ r ∈ opcodeTable,
    ¬(r.op = 0x00#6 ∨ r.op = 0x06#6 ∨ r.op = 0x07#6 ∨ r.op = 0x0F#6 ∨ 0x10 ≤ r.op.toNat) := by decide

/-- Settles O5: a word with an opcode of R63 meets no row. -/
theorem unassignedOpcodeRaisesIllegalCmd : Obligations.UnassignedOpcodeRaisesIllegalCmd :=
  fun _ _ turn hp hop => step_of_illegal turn hp (decode_of_unassigned fun r hr h => row_op_assigned r hr (h ▸ hop))

/-- Settles O6: the row of the word's opcode decides. -/
theorem nonzeroReservedBitRaisesIllegalCmd : Obligations.NonzeroReservedBitRaisesIllegalCmd := by
  intro s w r hr hop
  obtain ⟨i, _, _, e⟩ := decode_of_row hr hop
  refine ⟨⟨fun ⟨k, hk⟩ => (checked_ok.1 (e ▸ hk)).1, decode_of_masked hr⟩, fun turn hp hm => ?_⟩
  exact step_of_illegal turn hp (e.trans (checked_of_not_masked i hm))

/-! ### The block does not see what is outside it (10_state.md R15)

Agenda, answers given and values drawn are the model's own fields: a command, and the block's turn, come out the same
whatever stands there, and leave them as they are. -/

/-- s with other events to come, other answers given and other values drawn. -/
def State.inWorld (s : State) (es : List Event) (log : List Word) (n : Nat) : State :=
  { s with agenda := es, readLog := log, draws := n }

section
variable {s t : State} (es : List Event) (log : List Word) (n : Nat)

theorem sameBlock_inWorld (s : State) : SameBlock s (s.inWorld es log n) := ⟨rfl, rfl, rfl, rfl, rfl, rfl, rfl⟩

theorem raiseError_inWorld (s : State) (c : ErrorCode) (w : Word) :
    (s.inWorld es log n).raiseError c w = (s.raiseError c w).inWorld es log n := by
  rcases s.raiseError_cases c w with ⟨h, e⟩ | ⟨h, e⟩ <;> rw [e]
  · exact State.raiseError_of_ne _ c w h
  · exact State.raiseError_of_zero _ c w h

/-- A command whose body comes out the same in another world ends the same there. -/
theorem finish_inWorld {i : Instr} {r r' : Except ErrorCode State} (h : finish i s r = .next t)
    (hr : r' = (fun u => u.inWorld es log n) <$> r) : finish i (s.inWorld es log n) r' = .next (t.inWorld es log n) := by
  subst hr
  rcases finish_next.1 h with rfl | ⟨c, rfl, rfl⟩
  · rfl
  · exact congrArg Host.Outcome.next (raiseError_inWorld es log n s c _)

/-- A command comes out the same in another world. -/
theorem exec_inWorld {i : Instr} (h : exec i s = .next t) :
    exec i (s.inWorld es log n) = .next (t.inWorld es log n) := by
  cases i <;> refine finish_inWorld es log n h ?_ <;> simp only [map_bind, map_pure] <;> rfl

/-- Everything the block's turn can do: nothing when idle, else complete the pending command or raise ILLEGAL_CMD. -/
theorem blockStep_cases (h : blockStep s = .next t) :
    (s.pending = none ∧ t = s) ∨
      (∃ w i u, s.pending = some w ∧ decode w = .ok i ∧ exec i s = .next u ∧ t = u.retire) ∨
      (∃ w e, s.pending = some w ∧ decode w = .error e ∧ t = (s.raiseError .illegalCmd w).retire) := by
  cases hp : s.pending with
  | none =>
    cases blockStep_none hp ▸ h
    exact .inl ⟨rfl, rfl⟩
  | some w =>
    rw [blockStep_some hp] at h
    cases hd : decode w with
    | ok i =>
      obtain ⟨u, hu⟩ := exec_next i s
      rw [executeWord_ok hd, hu] at h
      cases h
      exact .inr (.inl ⟨w, i, u, rfl, hd, hu, rfl⟩)
    | error e =>
      cases executeWord_error hd ▸ h
      exact .inr (.inr ⟨w, e, rfl, hd, rfl⟩)

/-- The block's turn comes out the same in another world. -/
theorem blockStep_inWorld (h : blockStep s = .next t) :
    blockStep (s.inWorld es log n) = .next (t.inWorld es log n) := by
  rcases blockStep_cases h with ⟨hp, rfl⟩ | ⟨w, i, u, hp, hd, hu, rfl⟩ | ⟨w, e, hp, hd, rfl⟩
  · exact blockStep_none hp
  · rw [blockStep_some (s := s.inWorld es log n) hp, executeWord_ok hd, exec_inWorld es log n hu]
    rfl
  · rw [blockStep_some (s := s.inWorld es log n) hp, executeWord_error hd, raiseError_inWorld]
    rfl

/-- After its turn the block is idle. -/
theorem pending_of_blockStep (h : blockStep s = .next t) : t.pending = none := by
  rcases blockStep_cases h with ⟨hp, rfl⟩ | ⟨_, _, _, _, _, _, rfl⟩ | ⟨_, _, _, _, rfl⟩
  · exact hp
  · rfl
  · rfl

/-! ### EXEC (30_encoding.md R70) -/

theorem run_of_step (k : Nat) (h : step s = .next t) :
    Host.Core.run Sys2Proof.core (k + 1) s = Host.Core.run Sys2Proof.core k t := by
  simp only [Host.Core.run, show Sys2Proof.core.step s = .next t from h]

/-- A STATUS read is answered with STATUS. -/
theorem step_statusRead (s : State) :
    step (s.inWorld (readEvent .status :: es) log n) = .next (s.inWorld es (s.status :: log) n) :=
  step_readEvent_value .status (by simp) rfl

/-- A CMD write to an idle block with ERR = 0 is accepted (60_exceptions.md R97). -/
theorem step_cmdWrite {w : Word} (hp : s.pending = none) (h0 : s.err = 0#4) :
    step (s.inWorld (writeEvent .cmd w :: es) log n) = .next ((s.latch w).inWorld es log n) := by
  rw [step_writeEvent .cmd rfl]
  rcases offerCommand_cases w ((s.inWorld (writeEvent .cmd w :: es) log n).withAgenda es) with
    ⟨h, _⟩ | ⟨_, h, _⟩ | ⟨_, _, e⟩
  · exact absurd hp h
  · exact absurd h0 h
  · exact congrArg Host.Outcome.next e

/-- The block's turn is offered. -/
theorem step_turn (h : blockStep s = .next t) :
    step (s.inWorld (.blockTurn :: es) log n) = .next (t.inWorld es log n) := by
  rw [step_blockTurn (es := es) rfl]
  exact blockStep_inWorld (s := s) es log n h

/-- Polling STATUS k times answers the same STATUS k times and changes nothing else. -/
theorem run_polls (s : State) (k m : Nat) :
    Host.Core.run Sys2Proof.core (m + k) (s.inWorld (List.replicate k (readEvent .status) ++ es) log n) =
      Host.Core.run Sys2Proof.core m (s.inWorld es (List.replicate k s.status ++ log) n) := by
  induction k generalizing log with
  | zero => rfl
  | succ k ih =>
    rw [← Nat.add_assoc, List.replicate_succ, List.cons_append, run_of_step _ (step_statusRead _ log n s), ih,
      List.replicate_succ', List.append_assoc, List.singleton_append]

/-- WAIT: k polls before the block's turn, and one after it. -/
theorem run_waitEvents (k : Nat) (h : blockStep s = .next t) :
    Host.Core.run Sys2Proof.core (k + 2) (s.inWorld (waitEvents k) log n) =
      .next (t.inWorld [] (t.status :: (List.replicate k s.status ++ log)) n) := by
  rw [Nat.add_comm, waitEvents, run_polls, run_of_step 1 (step_turn _ _ n h), run_of_step 0 (step_statusRead [] _ n t)]
  rfl

end

/-- Accepting a command sets BUSY and nothing else of STATUS (10_state.md R27). -/
theorem status_latch {s : State} (w : Word) (hp : s.pending = none) : (s.latch w).status = s.status ||| 1#32 := by
  simp [State.status, State.busy, hp, BitVec.or_assoc]

/-- Settles O57: the first poll finds the block idle, the CMD write is accepted, and WAIT polls it until its turn, which
comes out as it would with no poll made. -/
theorem execRunsTheCommandOnce : Obligations.ExecRunsTheCommandOnce := by
  intro s w k hp h0 ha
  obtain ⟨u, hu⟩ := blockStep_next (s.latch w)
  have halone : step { s with pending := some w, agenda := [] } = .next (u.inWorld [] s.readLog s.draws) :=
    (step_nil rfl).trans (blockStep_inWorld [] s.readLog s.draws hu)
  have hrun : Host.Core.run Sys2Proof.core (k + 4) (s.inWorld ((HostOp.exec w).events k) s.readLog s.draws) =
      .next (u.inWorld [] (u.status :: (List.replicate k (s.latch w).status ++ s.status :: s.readLog)) s.draws) := by
    rw [HostOp.events, run_of_step _ (step_statusRead _ _ _ s), run_of_step _ (step_cmdWrite _ _ _ hp h0)]
    exact run_waitEvents _ _ k hu
  rw [← ha, status_latch w hp] at hrun
  exact ⟨_, _, halone, hrun, sameBlock_inWorld _ _ _ _, ⟨rfl, (pending_of_blockStep hu :)⟩, rfl⟩

end Sys2Proof.Machine

/-! PROOF. The vector commands (40_vector.md): the state each leaves when it completes, the errors it raises, and the
arithmetic of what it writes: the shift that tests a length, the fields of RESULT, and the odd counts behind parity and
the row-vector product. -/

namespace Sys2Proof.Machine

/-! ### Commands that complete (40_vector.md R74 to R78, 41_matrix.md R84) -/

section
variable {s : State}

theorem exec_ldv (d : VReg) {imm : Row} {len : Nat} (hl : legalSize len) (hi : imm >>> len = 0#16) :
    exec (.ldv d imm len) s = .next (s.setV d (some ⟨len, imm⟩)) := by
  simp [exec, execLdv, requireSize_of hl, hi]

theorem exec_rdv {a : VReg} {x : VecVal} (hx : s.getV a = some x) :
    exec (.rdv a) s = .next (s.setResult (resultWord x)) := by
  simp [exec, execRdv, vecOperand_of_some hx]

theorem exec_vxor (d : VReg) {a b : VReg} {x y : VecVal} (hx : s.getV a = some x) (hy : s.getV b = some y)
    (h : x.len = y.len) : exec (.vxor d a b) s = .next (s.setV d (some ⟨x.len, x.bits ^^^ y.bits⟩)) := by
  simp [exec, execVxor, vecOperand_of_some hx, vecOperand_of_some hy, requireSameSize_of h]

theorem exec_vdot (d : VReg) {a b : VReg} {x y : VecVal} (hx : s.getV a = some x) (hy : s.getV b = some y)
    (h : x.len = y.len) : exec (.vdot d a b) s =
      .next (s.setV d (some ⟨1, (BitVec.ofBool (parity (x.bits &&& y.bits))).setWidth 16⟩)) := by
  simp [exec, execVdot, vecOperand_of_some hx, vecOperand_of_some hy, requireSameSize_of h]

theorem exec_vmul (d : VReg) {a : VReg} {b : MReg} {x : VecVal} {A : MatVal} (hx : s.getV a = some x)
    (hA : s.getM b = some A) (h : x.len = A.dim) :
    exec (.vmul d a b) s = .next (s.setV d (some ⟨A.dim, rowTimes x.bits A.rows A.dim⟩)) := by
  simp [exec, execVmul, vecOperand_of_some hx, matOperand_of_some hA, requireSameSize_of h]

theorem exec_mrd (d : VReg) {a : MReg} {A : MatVal} {r : Nat} (hA : s.getM a = some A) (hr : r < A.dim) :
    exec (.mrd d a r) s = .next (s.setV d (some ⟨A.dim, rowOf A.rows r⟩)) := by
  simp [exec, execMrd, matOperand_of_some hA, requireRow_of hr]

/-! ### Operands of different sizes (40_vector.md R73)

An Empty operand is `emptyOperandIsNeverRead`. -/

theorem bind_vec_vec_mismatch {a b : VReg} {x y : VecVal} {f : VecVal → VecVal → Unit → Except ErrorCode State}
    (hx : s.getV a = some x) (hy : s.getV b = some y) (h : x.len ≠ y.len) :
    (vecOperand s a >>= fun x => vecOperand s b >>= fun y => requireSameSize x.len y.len >>= f x y) =
      .error .dimMismatch := by
  rw [vecOperand_of_some hx, bind_ok, vecOperand_of_some hy, bind_ok, requireSameSize_of_ne h, bind_error]

theorem bind_vec_mat_mismatch {a : VReg} {b : MReg} {x : VecVal} {A : MatVal}
    {f : VecVal → MatVal → Unit → Except ErrorCode State}
    (hx : s.getV a = some x) (hA : s.getM b = some A) (h : x.len ≠ A.dim) :
    (vecOperand s a >>= fun x => matOperand s b >>= fun A => requireSameSize x.len A.dim >>= f x A) =
      .error .dimMismatch := by
  rw [vecOperand_of_some hx, bind_ok, matOperand_of_some hA, bind_ok, requireSameSize_of_ne h, bind_error]

end

/-! ### LDV (40_vector.md R74) -/

/-- LDV's test of imm by a shift is the comparison with 2^len. -/
theorem shiftRight_eq_zero_iff_lt (x : Row) (n : Nat) : x >>> n = 0#16 ↔ x.toNat < 2 ^ n := by
  rw [← BitVec.toNat_inj, BitVec.toNat_ushiftRight, Nat.shiftRight_eq_div_pow, BitVec.toNat_ofNat, Nat.zero_mod,
    Nat.div_eq_zero_iff_lt (Nat.two_pow_pos n)]

/-- Settles O20, by R74's two conditions in the order LDV checks them; the second is tested by a shift
(`shiftRight_eq_zero_iff_lt`). -/
theorem ldvLoadsOrRefuses : Obligations.LdvLoadsOrRefuses := by
  intro d imm len s
  refine ⟨fun h1 h16 hi => ?_, fun hl => ?_, fun h1 h16 hi => ?_⟩
  · have hfits : imm >>> len = 0#16 := (shiftRight_eq_zero_iff_lt imm len).2 hi
    exact ⟨exec_ldv d ⟨h1, h16⟩ hfits, (shiftRight_eq_zero_iff imm len).1 hfits⟩
  · have hsize : ¬legalSize len := by
      rintro ⟨h1, h16⟩
      have : len ≤ 16 := h16
      omega
    exact raisesError_of_body rfl (by rw [requireSize_of_not hsize, bind_error])
  · have hbig : ¬imm >>> len = 0#16 := fun h => absurd ((shiftRight_eq_zero_iff_lt imm len).1 h) (by omega)
    exact raisesError_of_body rfl (by rw [requireSize_of ⟨h1, h16⟩, bind_ok, require_of_not _ hbig, bind_error])

/-! ### RDV (40_vector.md R75) -/

theorem resultWord_bits (x : VecVal) : (resultWord x).extractLsb' 0 16 = x.bits := by
  apply BitVec.eq_of_getLsbD_eq
  intro k hk
  simp [resultWord, hk, show k < 32 by omega]

theorem resultWord_len (x : VecVal) : (resultWord x).extractLsb' 16 5 = BitVec.ofNat 5 x.len := by
  apply BitVec.eq_of_getLsbD_eq
  intro k hk
  simp [resultWord, hk, show 16 + k < 32 by omega]

theorem resultWord_high (x : VecVal) : (resultWord x).extractLsb' 21 11 = 0#11 := by
  apply BitVec.eq_of_getLsbD_eq
  intro k hk
  have hlen : (BitVec.ofNat 5 x.len).getLsbD (21 + k - 16) = false := BitVec.getLsbD_of_ge _ _ (by omega)
  have hbits : x.bits.getLsbD (21 + k) = false := BitVec.getLsbD_of_ge _ _ (by omega)
  simp [resultWord, hlen, hbits]

/-- The low n bits of a number, each with its weight. -/
theorem mod_two_pow_eq_sum (m n : Nat) :
    m % 2 ^ n = ∑ k ∈ Finset.range n, if m.testBit k then 2 ^ k else 0 := by
  induction n with
  | zero => simp [Nat.mod_one]
  | succ n ih =>
    rw [Finset.sum_range_succ, ← ih, pow_succ, Nat.mod_mul, Nat.testBit_eq_decide_div_mod_eq]
    rcases Nat.mod_two_eq_zero_or_one (m / 2 ^ n) with h | h <;> simp [h]

theorem row_toNat_eq_sum (x : Row) : x.toNat = ∑ k ∈ Finset.range 16, if x.getLsbD k then 2 ^ k else 0 :=
  (Nat.mod_eq_of_lt x.isLt).symm.trans (mod_two_pow_eq_sum x.toNat 16)

/-- Settles O21, by the fields of the word RDV writes. -/
theorem rdvReadsTheInteger : Obligations.RdvReadsTheInteger := by
  intro a s
  refine ⟨fun x hx => ⟨resultWord x, exec_rdv hx, resultWord_bits x, resultWord_len x, resultWord_high x, ?_⟩,
    fun h => emptyOperandIsNeverRead _ _ (.inl ⟨a, by simp [readsVec], h⟩)⟩
  rw [resultWord_bits, row_toNat_eq_sum]

/-- Settles O25: RDV of what LDV wrote. -/
theorem loadThenReadRoundTrip : Obligations.LoadThenReadRoundTrip := by
  intro d imm n s h1 h16 hi
  refine ⟨_, _, exec_ldv d ⟨h1, h16⟩ ((shiftRight_eq_zero_iff_lt imm n).2 hi),
    exec_rdv (getV_setV_self s d _), ?_, ?_⟩
  · exact resultWord_bits ⟨n, imm⟩
  · rw [State.setResult_result, resultWord_len, BitVec.toNat_ofNat]
    exact Nat.mod_eq_of_lt (show n < 2 ^ 5 by omega)

/-! ### VXOR (40_vector.md R76) -/

/-- Settles O22: the XOR of the bits is taken element by element. -/
theorem vxorAddsElementwise : Obligations.VxorAddsElementwise := by
  intro d a b s
  refine ⟨fun x y hx hy h => ⟨x.bits ^^^ y.bits, exec_vxor d hx hy h, fun k => ?_, ?_⟩,
    fun x y hx hy h => raisesError_of_body rfl (bind_vec_vec_mismatch hx hy h), fun h => ?_⟩
  · exact BitVec.getLsbD_xor
  · rintro rfl
    obtain rfl : x = y := Option.some.inj (hx.symm.trans hy)
    exact BitVec.xor_self
  · exact emptyOperandIsNeverRead _ _ (.inl (by simpa [readsVec] using h))

/-! ### Odd counts (40_vector.md R77, R78)

An XOR of bits is 1 exactly when an odd number of them are. -/

/-- Of the positions below n an odd number satisfy f. -/
def oddBelow (n : Nat) (f : Nat → Bool) : Bool := decide ((List.range n).countP f % 2 = 1)

@[simp] theorem oddBelow_zero (f : Nat → Bool) : oddBelow 0 f = false := rfl

theorem oddBelow_succ (n : Nat) (f : Nat → Bool) : oddBelow (n + 1) f = (oddBelow n f ^^ f n) := by
  rw [oddBelow, oddBelow, List.range_succ, List.countP_append]
  cases h : f n with
  | false => simp [h]
  | true =>
    rcases Nat.mod_two_eq_zero_or_one ((List.range n).countP f) with e | e <;> simp [h, e, Nat.add_mod]

/-- Positions that do not satisfy f do not count. -/
theorem oddBelow_of_false_from {n m : Nat} {f : Nat → Bool} (hnm : n ≤ m) (hf : ∀ k, n ≤ k → f k = false) :
    oddBelow m f = oddBelow n f := by
  induction m, hnm using Nat.le_induction with
  | base => rfl
  | succ m hm ih => rw [oddBelow_succ, ih, hf m hm, Bool.xor_false]

theorem foldl_xor_eq_oddBelow (f : Nat → Bool) (n : Nat) :
    (List.range n).foldl (fun p i => Bool.xor p (f i)) false = oddBelow n f := by
  induction n with
  | zero => rfl
  | succ n ih => rw [List.range_succ, List.foldl_append, ih, oddBelow_succ]; rfl

/-- parity(w) is 1 exactly when an odd number of w's bits are (00_scope.md R9). -/
theorem parity_eq_oddBelow (w : Row) : parity w = oddBelow 16 w.getLsbD := foldl_xor_eq_oddBelow _ 16

/-- The dot product's parity, over the vector's elements only: the padding of a legal vector is zero. -/
theorem parity_and_eq_oddBelow {x : VecVal} (hx : x.wf) (y : Row) :
    parity (x.bits &&& y) = oddBelow x.len fun k => x.bits.getLsbD k && y.getLsbD k := by
  obtain ⟨⟨_, hlen⟩, hpad⟩ := hx
  have hzero := (shiftRight_eq_zero_iff x.bits x.len).1 hpad
  rw [parity_eq_oddBelow, oddBelow_of_false_from (show x.len ≤ 16 from hlen) fun k hk => by simp [hzero k hk]]
  exact congrArg (oddBelow x.len) (funext fun k => BitVec.getLsbD_and)

theorem setWidth_ofBool_decide (p : Prop) [Decidable p] :
    (BitVec.ofBool (decide p)).setWidth 16 = if p then 1#16 else 0#16 := by
  split <;> simp [*]

/-- Settles O23: the parity of the AND counts the positions below the length. -/
theorem vdotIsTheParityOfTheProducts : Obligations.VdotIsTheParityOfTheProducts := by
  intro d a b s
  refine ⟨fun x y hx hy hwf _ h => ?_,
    fun x y hx hy h => raisesError_of_body rfl (bind_vec_vec_mismatch hx hy h), fun h => ?_⟩
  · rw [exec_vdot d hx hy h, parity_and_eq_oddBelow hwf, oddBelow, setWidth_ofBool_decide]
    rfl
  · exact emptyOperandIsNeverRead _ _ (.inl (by simpa [readsVec] using h))

/-! ### VMUL (40_vector.md R78, R79) -/

/-- Element c of the product is the dot product of the vector with column c. -/
theorem getLsbD_rowTimes (x : Row) (R : Rows) (n c : Nat) :
    (rowTimes x R n).getLsbD c = oddBelow n fun r => x.getLsbD r && (rowOf R r).getLsbD c := by
  induction n with
  | zero => simp
  | succ n ih =>
    rw [rowTimes_succ, oddBelow_succ, ← ih]
    cases x.getLsbD n <;> simp

/-- The k-th unit vector. -/
theorem getLsbD_unit {k : Nat} (hk : k < 16) (n : Nat) : (1#16 <<< k).getLsbD n = decide (k = n) := by
  have h : (1#16 <<< k).getLsbD n = (decide (k < 16) && decide (k = n)) := BitVec.getLsbD_twoPow k n
  rw [h, decide_eq_true hk, Bool.true_and]

/-- The k-th unit vector picks row k. -/
theorem rowTimes_unit (R : Rows) {k : Nat} (hk : k < 16) (n : Nat) :
    rowTimes (1#16 <<< k) R n = if k < n then rowOf R k else 0#16 := by
  induction n with
  | zero => simp
  | succ n ih =>
    rw [rowTimes_succ, getLsbD_unit hk, ih]
    rcases Nat.lt_trichotomy k n with h | rfl | h
    · simp [h.ne, h, Nat.lt_succ_of_lt h]
    · simp
    · simp [h.ne', h.not_gt, show ¬k < n + 1 by omega]

/-- The product with the first n rows of an identity matrix keeps the first n elements. -/
theorem getLsbD_rowTimes_identityRows (x : Row) {m n : Nat} (hm : m ≤ 16) (hn : n ≤ m) (c : Nat) :
    (rowTimes x (identityRows m) n).getLsbD c = (decide (c < n) && x.getLsbD c) := by
  induction n with
  | zero => simp
  | succ n ih =>
    have hrow : (rowOf (identityRows m) n).getLsbD c = decide (n = c) := by
      rw [rowOf_identityRows (by omega), if_pos (show n < m by omega), getLsbD_unit (by omega)]
    have hsucc : (rowTimes x (identityRows m) (n + 1)).getLsbD c =
        ((decide (c < n) && x.getLsbD c) ^^ (x.getLsbD n && decide (n = c))) := by
      rw [rowTimes_succ, ← hrow, ← ih (by omega)]
      cases x.getLsbD n <;> simp
    rw [hsucc]
    rcases Nat.lt_trichotomy c n with h | rfl | h
    · simp [h.ne', h, Nat.lt_succ_of_lt h]
    · simp
    · simp [h.ne, h.not_gt, show ¬c < n + 1 by omega]

/-- The identity matrix leaves a legal vector as it is. -/
theorem rowTimes_identity {x : VecVal} (hx : x.wf) : rowTimes x.bits (identityRows x.len) x.len = x.bits := by
  obtain ⟨⟨_, hlen⟩, hpad⟩ := hx
  apply BitVec.eq_of_getLsbD_eq
  intro c _
  rw [getLsbD_rowTimes_identityRows _ hlen le_rfl]
  by_cases hc : c < x.len
  · simp [hc]
  · simp [hc, (shiftRight_eq_zero_iff x.bits x.len).1 hpad c (by omega)]

/-- Settles O24: the product's elements are dot products with the columns (`getLsbD_rowTimes`); the special cases are
`rowTimes_zero`, `rowTimes_unit` and `rowTimes_identity`. -/
theorem vmulIsTheRowVectorProduct : Obligations.VmulIsTheRowVectorProduct := by
  intro d a b s
  refine ⟨fun x A hx hA hxwf hAwf h => ⟨_, exec_vmul d hx hA h, getLsbD_rowTimes _ _ _, ?_, ?_, ?_⟩,
    fun x A hx hA h => raisesError_of_body rfl (bind_vec_mat_mismatch hx hA h), fun h => ?_⟩
  · intro hzero
    rw [hzero, rowTimes_zero]
  · intro k hk hunit
    rw [hunit, rowTimes_unit _ (hk.trans_le hAwf.1.2), if_pos hk]
  · intro hid
    have hrows : A.rows = identityRows x.len := by rw [hid, MatVal.identity_rows, h]
    rw [hrows, ← h, rowTimes_identity hxwf]
  · exact emptyOperandIsNeverRead _ _
      (h.imp (fun h => ⟨a, by simp [readsVec], h⟩) fun h => ⟨b, by simp [readsMat], h⟩)

/-- Settles O26: `rowTimes` is linear, and y is still in its register after x A is written to p. -/
theorem vmulIsLinear : Obligations.VmulIsLinear := by
  intro a b c d p q e m x y A s hx hy hA hxA hyA hpb hpq
  have hy₁ : ∀ v, (s.setV p v).getV b = some y := fun v => (getV_setV_ne s p b v hpb.symm).trans hy
  have hp₂ : ∀ v w, ((s.setV p v).setV q w).getV p = v := fun v w =>
    (getV_setV_ne (s.setV p v) q p w hpq).trans (getV_setV_self s p v)
  refine ⟨_, _, _, _, _, rowTimes (x.bits ^^^ y.bits) A.rows A.dim,
    ⟨exec_vxor c hx hy (hxA.trans hyA.symm), exec_vmul d (getV_setV_self s c _) hA hxA⟩,
    ⟨exec_vmul p hx hA hxA, exec_vmul q (hy₁ _) hA hyA, exec_vxor e (hp₂ _ _) (getV_setV_self _ q _) rfl⟩,
    getV_setV_self _ d _, ?_⟩
  rw [getV_setV_self, rowTimes_xor]

/-- A row number above 15 names no row of the product, and a zero row of the left factor. -/
theorem rowOf_mul_any_row (A B : MatVal) (r : Nat) :
    rowOf (A.mul B).rows r = rowTimes (rowOf A.rows r) B.rows B.dim := by
  rcases Nat.lt_or_ge r 16 with h | h
  · exact rowOf_mul A B h
  · rw [rowOf_of_ge _ h, rowOf_of_ge _ h, rowTimes_zero]

/-- Settles O27, by `rowTimes_mul`; row r of the product matrix is row r of A times B (`rowOf_mul_any_row`). -/
theorem vmulComposes : Obligations.VmulComposes := by
  intro a d e i j k x A B s hx hA hB hAB hxA hdim
  refine ⟨⟨_, _, _, rowTimes x.bits (A.mul B).rows A.dim, exec_vmul d hx hA hxA,
    exec_vmul e (getV_setV_self s d _) hB hdim, exec_vmul e hx hAB hxA, ?_, ?_⟩, fun r hr => ?_⟩
  · rw [getV_setV_self, rowTimes_mul]
  · rw [getV_setV_self, MatVal.mul_dim, hdim]
  · refine ⟨_, _, exec_mrd d hA hr, exec_vmul e (getV_setV_self s d _) hB hdim, ?_⟩
    rw [getV_setV_self, rowOf_mul_any_row]

end Sys2Proof.Machine

/-! PROOF. The matrix commands (41_matrix.md): the state each leaves when it completes, the errors it raises, and what
the row operations do entry by entry. MRD's completion `exec_mrd` stands with the vector commands. -/

namespace Sys2Proof.Machine

/-! ### Writing a matrix register again (10_state.md R19) -/

section
variable {s : State}

/-- The later write decides. -/
theorem setM_setM (r : MReg) (c c' : MCell) : (s.setM r c).setM r c' = s.setM r c' := by
  simp [State.setM]

/-- Writing what the register holds changes nothing. -/
theorem setM_of_getM {r : MReg} {c : MCell} (h : s.getM r = c) : s.setM r c = s := by
  subst h
  simp [State.setM, State.getM, Vector.get_eq_getElem]

/-! ### Commands that complete (41_matrix.md R81 to R86) -/

theorem exec_ident (d : MReg) {n : Nat} (hn : legalSize n) :
    exec (.ident d n) s = .next (s.setM d (some (MatVal.identity n))) := by
  simp [exec, execIdent, requireSize_of hn]

theorem exec_mmov (d : MReg) {a : MReg} {A : MatVal} (hA : s.getM a = some A) :
    exec (.mmov d a) s = .next (s.setM d (some A)) := by
  simp [exec, execMmov, matOperand_of_some hA]

theorem exec_mwr {d : MReg} {i : Nat} {a : VReg} {x : VecVal} {A : MatVal} (hx : s.getV a = some x)
    (hA : s.getM d = some A) (hi : i < A.dim) (h : x.len = A.dim) :
    exec (.mwr d i a) s = .next (s.setM d (some ⟨A.dim, setRow A.rows i x.bits⟩)) := by
  simp [exec, execMwr, vecOperand_of_some hx, matOperand_of_some hA, requireRow_of hi, requireSameSize_of h]

theorem exec_swapr {d : MReg} {i j : Nat} {A : MatVal} (hA : s.getM d = some A) (hi : i < A.dim) (hj : j < A.dim) :
    exec (.swapr d i j) s = .next (s.setM d (some ⟨A.dim, swapRows A.rows i j⟩)) := by
  simp [exec, execSwapr, matOperand_of_some hA, requireRow_of hi, requireRow_of hj]

theorem exec_xorr {d : MReg} {i j : Nat} {A : MatVal} (hA : s.getM d = some A) (hi : i < A.dim) (hj : j < A.dim) :
    exec (.xorr d i j) s = .next (s.setM d (some ⟨A.dim, xorRow A.rows i j⟩)) := by
  simp [exec, execXorr, matOperand_of_some hA, requireRow_of hi, requireRow_of hj]

/-! ### Row numbers not below dim (41_matrix.md R80)

An Empty operand is `emptyOperandIsNeverRead`. -/

theorem bind_requireRow_of_ge {A : MatVal} {i : Nat} {f : Unit → Except ErrorCode State} (h : A.dim ≤ i) :
    (requireRow A i >>= f) = .error .range := by
  rw [requireRow_of_ge h, bind_error]

/-- Two row numbers, one of them not below dim. -/
theorem bind_requireRow_requireRow_of_ge {A : MatVal} {i j : Nat} {f : Unit → Except ErrorCode State}
    (h : A.dim ≤ i ∨ A.dim ≤ j) : (requireRow A i >>= fun _ => requireRow A j >>= f) = .error .range := by
  rcases Nat.lt_or_ge i A.dim with hi | hi
  · rw [requireRow_of hi, bind_ok, bind_requireRow_of_ge (h.resolve_left hi.not_ge)]
  · exact bind_requireRow_of_ge hi

/-- A rule that reads a matrix operand goes on with its value. -/
theorem bind_matOperand_of_some {r : MReg} {A : MatVal} {f : MatVal → Except ErrorCode State}
    (h : s.getM r = some A) : (matOperand s r >>= f) = f A := by
  rw [matOperand_of_some h, bind_ok]

/-- A rule that reads a vector and a matrix operand goes on with their values. -/
theorem bind_vecOperand_matOperand_of_some {a : VReg} {b : MReg} {x : VecVal} {A : MatVal}
    {f : VecVal → MatVal → Except ErrorCode State} (hx : s.getV a = some x) (hA : s.getM b = some A) :
    (vecOperand s a >>= fun x => matOperand s b >>= f x) = f x A := by
  rw [vecOperand_of_some hx, bind_ok, bind_matOperand_of_some hA]

end

/-! ### Entries and rows (00_scope.md R10) -/

/-- A row below the dim of a legal matrix is one of the 16 rows. -/
theorem MatVal.wf.row_lt {A : MatVal} (h : A.wf) {i : Nat} (hi : i < A.dim) : i < 16 := hi.trans_le h.1.2

theorem entry_identity {n : Nat} (hn : n ≤ 16) (r c : Nat) :
    (MatVal.identity n).entry r c = decide (r = c ∧ r < n) := by
  rw [MatVal.entry, MatVal.identity_rows]
  rcases Nat.lt_or_ge r 16 with hr | hr
  · rw [rowOf_identityRows hr]
    split
    case isTrue h => simp [getLsbD_unit hr, h]
    case isFalse h => simp [h]
  · simp [rowOf_of_ge _ hr, show ¬r < n by omega]

theorem rowOf_swapRows_right (R : Rows) {i j : Nat} (hi : i < 16) (hj : j < 16) :
    rowOf (swapRows R i j) j = rowOf R i := by
  rw [rowOf_swapRows R hi hj, if_pos rfl]

theorem rowOf_swapRows_left (R : Rows) {i j : Nat} (hi : i < 16) (hj : j < 16) :
    rowOf (swapRows R i j) i = rowOf R j := by
  rw [rowOf_swapRows R hi hj, if_pos rfl]
  split
  case isTrue h => rw [h]
  case isFalse => rfl

theorem rowOf_swapRows_of_ne (R : Rows) {i j q : Nat} (hi : i < 16) (hj : j < 16) (hqi : q ≠ i) (hqj : q ≠ j) :
    rowOf (swapRows R i j) q = rowOf R q := by
  rw [rowOf_swapRows R hi hj, if_neg hqj, if_neg hqi]

/-- Swapping a row with itself changes nothing. -/
theorem swapRows_self (R : Rows) {i : Nat} (hi : i < 16) : swapRows R i i = R := by
  refine rows_ext fun q _ => ?_
  by_cases h : q = i
  · rw [h, rowOf_swapRows_right R hi hi]
  · exact rowOf_swapRows_of_ne R hi hi h h

/-- A row swap undoes itself. -/
theorem swapRows_swapRows (R : Rows) {i j : Nat} (hi : i < 16) (hj : j < 16) :
    swapRows (swapRows R i j) i j = R := by
  refine rows_ext fun q _ => ?_
  by_cases hqi : q = i
  · rw [hqi, rowOf_swapRows_left _ hi hj, rowOf_swapRows_right R hi hj]
  by_cases hqj : q = j
  · rw [hqj, rowOf_swapRows_right _ hi hj, rowOf_swapRows_left R hi hj]
  · rw [rowOf_swapRows_of_ne _ hi hj hqi hqj, rowOf_swapRows_of_ne R hi hj hqi hqj]

theorem rowOf_xorRow_self (R : Rows) {i j : Nat} (hi : i < 16) :
    rowOf (xorRow R i j) i = rowOf R i ^^^ rowOf R j := by
  rw [rowOf_xorRow R hi, if_pos rfl]

theorem rowOf_xorRow_of_ne (R : Rows) {i j q : Nat} (hi : i < 16) (hq : q ≠ i) :
    rowOf (xorRow R i j) q = rowOf R q := by
  rw [rowOf_xorRow R hi, if_neg hq]

/-- Adding a row into another one undoes itself. -/
theorem xorRow_xorRow (R : Rows) {i j : Nat} (hi : i < 16) (hij : i ≠ j) : xorRow (xorRow R i j) i j = R := by
  refine rows_ext fun q _ => ?_
  by_cases h : q = i
  · rw [h, rowOf_xorRow_self _ hi, rowOf_xorRow_self R hi, rowOf_xorRow_of_ne R hi hij.symm, BitVec.xor_assoc,
      BitVec.xor_self, BitVec.xor_zero]
  · rw [rowOf_xorRow_of_ne _ hi h, rowOf_xorRow_of_ne R hi h]

/-! ### The statements -/

/-- Settles O28, by the entries of the identity rows. -/
theorem identLoadsTheIdentity : Obligations.IdentLoadsTheIdentity := by
  intro d n s
  refine ⟨fun h1 h16 => ⟨_, exec_ident d ⟨h1, h16⟩, rfl, entry_identity h16⟩, fun hn => ?_⟩
  have hsize : ¬legalSize n := by
    rintro ⟨h1, h16⟩
    have : n ≤ 16 := h16
    omega
  exact raisesError_of_body rfl (by rw [requireSize_of_not hsize, bind_error])

/-- Settles O29: a register written with its own value keeps the state as it was (`setM_of_getM`). -/
theorem mmovCopies : Obligations.MmovCopies := by
  intro d a s
  refine ⟨fun A hA => ⟨exec_mmov d hA, ?_⟩,
    fun h => emptyOperandIsNeverRead _ _ (.inr ⟨a, by simp [readsMat], h⟩)⟩
  rintro rfl
  rw [exec_mmov d hA, setM_of_getM hA]

/-- Settles O30: the write of one row (`rowOf_setRow`), and the checks in the order MWR makes them. -/
theorem mwrWritesTheRow : Obligations.MwrWritesTheRow := by
  intro d i a s
  refine ⟨fun x A hx hA hwf hi h => ?_, fun h => ?_, fun x A hx hA hi => ?_, fun x A hx hA hi h => ?_⟩
  · have hrow := fun r => rowOf_setRow A.rows (q := r) x.bits (hwf.row_lt hi)
    refine ⟨_, exec_mwr hx hA hi h, rfl, fun c => ?_, fun r hr => (hrow r).trans (if_neg hr)⟩
    rw [MatVal.entry, hrow, if_pos rfl]
  · exact emptyOperandIsNeverRead _ _
      (h.imp (fun h => ⟨a, by simp [readsVec], h⟩) fun h => ⟨d, by simp [readsMat], h⟩)
  · exact raisesError_of_body rfl
      ((bind_vecOperand_matOperand_of_some hx hA).trans (bind_requireRow_of_ge hi))
  · refine raisesError_of_body rfl ((bind_vecOperand_matOperand_of_some hx hA).trans ?_)
    rw [requireRow_of hi, bind_ok, requireSameSize_of_ne h, bind_error]

/-- Settles O31: the vector MRD writes is the row itself. -/
theorem mrdReadsTheRow : Obligations.MrdReadsTheRow := by
  intro d a i s
  exact ⟨fun A hA hi => ⟨_, exec_mrd d hA hi, fun _ => rfl⟩,
    fun h => emptyOperandIsNeverRead _ _ (.inr ⟨a, by simp [readsMat], h⟩),
    fun A hA hi => raisesError_of_body rfl ((bind_matOperand_of_some hA).trans (bind_requireRow_of_ge hi))⟩

/-- Settles O32, row by row (`rowOf_swapRows_left`, `rowOf_swapRows_right`, `rowOf_swapRows_of_ne`). -/
theorem swaprSwapsRows : Obligations.SwaprSwapsRows := by
  intro d i j s
  refine ⟨fun A hA hwf hi hj => ?_, fun h => emptyOperandIsNeverRead _ _ (.inr ⟨d, by simp [readsMat], h⟩),
    fun A hA h => raisesError_of_body rfl ((bind_matOperand_of_some hA).trans (bind_requireRow_requireRow_of_ge h))⟩
  have hi16 := hwf.row_lt hi
  have hj16 := hwf.row_lt hj
  refine ⟨_, exec_swapr hA hi hj, rfl, rowOf_swapRows_left _ hi16 hj16, rowOf_swapRows_right _ hi16 hj16,
    fun r => rowOf_swapRows_of_ne _ hi16 hj16, ?_⟩
  rintro rfl
  rw [swapRows_self A.rows hi16]

/-- Settles O33, row by row (`rowOf_xorRow_self`, `rowOf_xorRow_of_ne`). -/
theorem xorrAddsTheRow : Obligations.XorrAddsTheRow := by
  intro d i j s
  refine ⟨fun A hA hwf hi hj => ?_, fun h => emptyOperandIsNeverRead _ _ (.inr ⟨d, by simp [readsMat], h⟩),
    fun A hA h => raisesError_of_body rfl ((bind_matOperand_of_some hA).trans (bind_requireRow_requireRow_of_ge h))⟩
  have hrow := rowOf_xorRow_self A.rows (j := j) (hwf.row_lt hi)
  refine ⟨_, exec_xorr hA hi hj, rfl, fun c => ?_, fun r => rowOf_xorRow_of_ne _ (hwf.row_lt hi), ?_⟩
  · rw [MatVal.entry, hrow]
    exact BitVec.getLsbD_xor
  · rintro rfl
    rw [hrow, BitVec.xor_self]

/-- Settles O34: the second command finds the rows the first one wrote, restores them (`swapRows_swapRows`,
`xorRow_xorRow`), and so leaves the register as it was. -/
theorem rowPrimitivesAreInvolutions : Obligations.RowPrimitivesAreInvolutions := by
  intro d i j A s hA hwf hi hj
  refine ⟨⟨_, exec_swapr hA hi hj, ?_⟩, fun hij => ⟨_, exec_xorr hA hi hj, ?_⟩⟩
  · rw [exec_swapr (getM_setM_self s d (some ⟨A.dim, swapRows A.rows i j⟩)) hi hj, setM_setM,
      swapRows_swapRows A.rows (hwf.row_lt hi) (hwf.row_lt hj), setM_of_getM hA]
  · rw [exec_xorr (getM_setM_self s d (some ⟨A.dim, xorRow A.rows i j⟩)) hi hj, setM_setM,
      xorRow_xorRow A.rows (hwf.row_lt hi) hij, setM_of_getM hA]

end Sys2Proof.Machine

/-! PROOF. Inversion (42_inversion.md): a matrix of the block read as a matrix over the field with two elements, what the
passes of R89 to R93 do to it, and INV. The linear algebra behind R95 is Mathlib's: a row operation is a product with an
elementary matrix, a matrix is singular when its determinant is 0, and a one-sided inverse is two-sided. -/

namespace Sys2Proof.Machine

/-! ### Rows as matrices over GF(2) (00_scope.md R8) -/

/-- A bit as an element of the field with two elements. -/
def gf2 (b : Bool) : ZMod 2 := if b then 1 else 0

@[simp] theorem gf2_false : gf2 false = 0 := rfl
@[simp] theorem gf2_true : gf2 true = 1 := rfl

theorem gf2_xor (a b : Bool) : gf2 (a ^^ b) = gf2 a + gf2 b := by
  cases a <;> cases b <;> decide

theorem gf2_injective : Function.Injective gf2 := by
  intro a b
  cases a <;> cases b <;> decide

/-- Bit c of row r (00_scope.md R10): `MatVal.entry` without a dimension. -/
abbrev entryOf (R : Rows) (r c : Nat) : Bool := (rowOf R r).getLsbD c

/-- The n by n matrix over GF(2) in the first n rows. -/
def gf2Matrix (n : Nat) (R : Rows) : Matrix (Fin n) (Fin n) (ZMod 2) := fun r c => gf2 (entryOf R r c)

theorem gf2Matrix_apply {n : Nat} (R : Rows) (r c : Fin n) : gf2Matrix n R r c = gf2 (entryOf R r c) := rfl

theorem gf2Matrix_row_congr {n : Nat} {R Q : Rows} {r q : Fin n} (h : rowOf R r = rowOf Q q) (c : Fin n) :
    gf2Matrix n R r c = gf2Matrix n Q q c := by
  rw [gf2Matrix_apply, gf2Matrix_apply, entryOf, h]

theorem gf2Matrix_identity {n : Nat} (hn : n ≤ 16) : gf2Matrix n (identityRows n) = 1 := by
  ext r c
  have hrc : entryOf (identityRows n) r c = decide (r = c) :=
    (entry_identity hn r c).trans (by simp [Fin.ext_iff])
  rw [gf2Matrix_apply, hrc, Matrix.one_apply]
  by_cases h : r = c <;> simp [h]

theorem gf2_rowTimes (x : Row) (R : Rows) (n c : Nat) :
    gf2 ((rowTimes x R n).getLsbD c) = ∑ k ∈ Finset.range n, gf2 (x.getLsbD k) * gf2 (entryOf R k c) := by
  induction n with
  | zero => simp
  | succ n ih =>
    rw [Finset.sum_range_succ, ← ih, rowTimes_succ]
    cases x.getLsbD n <;> simp [gf2_xor]

/-- The block's product is the product of matrices. -/
theorem gf2Matrix_mul (A B : MatVal) :
    gf2Matrix B.dim (A.mul B).rows = gf2Matrix B.dim A.rows * gf2Matrix B.dim B.rows := by
  ext r c
  rw [gf2Matrix_apply, entryOf, rowOf_mul_any_row, gf2_rowTimes, Matrix.mul_apply]
  exact Finset.sum_range fun k => gf2 (entryOf A.rows r k) * gf2 (entryOf B.rows k c)

theorem MatVal.wf.row_zero {A : MatVal} (h : A.wf) {r : Nat} (hr : A.dim ≤ r) : rowOf A.rows r = 0#16 := by
  by_cases h16 : r < 16
  · simpa [hr.not_gt] using h.2 ⟨r, h16⟩
  · exact rowOf_of_ge _ (by omega)

/-- A legal matrix is determined by its dim by dim square. -/
theorem eq_of_gf2Matrix_eq {A B : MatVal} (hA : A.wf) (hB : B.wf) (hd : A.dim = B.dim)
    (h : gf2Matrix A.dim A.rows = gf2Matrix A.dim B.rows) : A = B := by
  refine congrArg₂ MatVal.mk hd (rows_ext fun r _ => ?_)
  by_cases hr : r < A.dim
  · refine BitVec.eq_of_getLsbD_eq fun c _ => ?_
    by_cases hc : c < A.dim
    · exact gf2_injective (congrFun (congrFun h ⟨r, hr⟩) ⟨c, hc⟩)
    · rw [(shiftRight_eq_zero_iff _ _).1 (hA.row_fits r) c (by omega),
        (shiftRight_eq_zero_iff _ _).1 (hB.row_fits r) c (by omega)]
  · rw [hA.row_zero (by omega), hB.row_zero (by omega)]

theorem mul_wf {A B : MatVal} (hA : A.wf) (hB : B.wf) (hd : A.dim = B.dim) : (A.mul B).wf := by
  refine ⟨hA.1, fun r => ?_⟩
  rw [rowOf_mul_any_row, MatVal.mul_dim]
  split
  case isTrue => rw [hd]; exact rowTimes_fits hB _ _
  case isFalse hr => rw [hA.row_zero (by omega), rowTimes_zero]

/-- Legal matrices of one dimension have the identity as their product exactly when they do over GF(2). -/
theorem mul_eq_identity_iff {A B : MatVal} (hA : A.wf) (hB : B.wf) (hd : A.dim = B.dim) :
    A.mul B = MatVal.identity B.dim ↔ gf2Matrix B.dim A.rows * gf2Matrix B.dim B.rows = 1 := by
  rw [← gf2Matrix_mul, ← gf2Matrix_identity hB.1.2]
  refine ⟨fun h => by rw [h, MatVal.identity_rows], fun h => ?_⟩
  exact eq_of_gf2Matrix_eq (mul_wf hA hB hd) (identity_wf hB.1) hd (by rwa [MatVal.mul_dim, hd])

/-! ### Row operations as elementary matrices (41_matrix.md R85, R86) -/

section
variable {n : Nat} (R : Rows)

theorem gf2Matrix_swapRows (hn : n ≤ 16) (i p : Fin n) :
    gf2Matrix n (swapRows R i p) = Matrix.swap (ZMod 2) i p * gf2Matrix n R := by
  have hi : i.val < 16 := by omega
  have hp : p.val < 16 := by omega
  ext q c
  by_cases hqi : q = i
  · rw [hqi, Matrix.swap_mul_apply_left]
    exact gf2Matrix_row_congr (rowOf_swapRows_left R hi hp) c
  by_cases hqp : q = p
  · rw [hqp, Matrix.swap_mul_apply_right]
    exact gf2Matrix_row_congr (rowOf_swapRows_right R hi hp) c
  · rw [Matrix.swap_mul_of_ne hqi hqp]
    exact gf2Matrix_row_congr (rowOf_swapRows_of_ne R hi hp (Fin.val_ne_of_ne hqi) (Fin.val_ne_of_ne hqp)) c

theorem gf2Matrix_xorRow (hn : n ≤ 16) (r i : Fin n) :
    gf2Matrix n (xorRow R r i) = Matrix.transvection r i 1 * gf2Matrix n R := by
  have hr : r.val < 16 := by omega
  ext q c
  by_cases hq : q = r
  · rw [hq, Matrix.transvection_mul_apply_same, one_mul, gf2Matrix_apply, gf2Matrix_apply, gf2Matrix_apply, entryOf,
      rowOf_xorRow_self R hr, BitVec.getLsbD_xor, gf2_xor]
  · rw [Matrix.transvection_mul_apply_of_ne _ _ _ _ hq]
    exact gf2Matrix_row_congr (rowOf_xorRow_of_ne R hr (Fin.val_ne_of_ne hq)) c

end

theorem isUnit_swap {n : Nat} (i p : Fin n) : IsUnit (Matrix.swap (ZMod 2) i p) :=
  IsUnit.of_mul_eq_one _ (Matrix.swap_mul_self i p)

theorem isUnit_transvection {n : Nat} {r i : Fin n} (h : r ≠ i) : IsUnit (Matrix.transvection r i (1 : ZMod 2)) := by
  rw [Matrix.isUnit_iff_isUnit_det, Matrix.det_transvection_of_ne r i h]
  exact isUnit_one

/-! ### X A = W throughout (42_inversion.md R95) -/

/-- What every row operation keeps: X is invertible, and X times the source is W. -/
structure GaussPair.Tracks (n : Nat) (A : Rows) (g : GaussPair) : Prop where
  isUnit : IsUnit (gf2Matrix n g.X)
  mul_eq : gf2Matrix n g.X * gf2Matrix n A = gf2Matrix n g.W

section
variable {n : Nat} {A : Rows} {g : GaussPair}

theorem gaussStart_tracks {A : MatVal} (h : A.wf) : (gaussStart A).Tracks A.dim A.rows where
  isUnit := by
    rw [gaussStart, gf2Matrix_identity h.1.2]
    exact isUnit_one
  mul_eq := by rw [gaussStart, gf2Matrix_identity h.1.2, one_mul]

/-- One invertible matrix applied to both W and X. -/
theorem GaussPair.Tracks.of_mul {E : Matrix (Fin n) (Fin n) (ZMod 2)} {k : GaussPair} (h : g.Tracks n A)
    (hE : IsUnit E) (hW : gf2Matrix n k.W = E * gf2Matrix n g.W) (hX : gf2Matrix n k.X = E * gf2Matrix n g.X) :
    k.Tracks n A where
  isUnit := hX ▸ hE.mul h.isUnit
  mul_eq := by rw [hX, hW, mul_assoc, h.mul_eq]

theorem gaussSwap_tracks (hn : n ≤ 16) (h : g.Tracks n A) {i p : Nat} (hi : i < n) (hp : p < n) :
    (gaussSwap i g p).Tracks n A :=
  h.of_mul (isUnit_swap ⟨i, hi⟩ ⟨p, hp⟩) (gf2Matrix_swapRows g.W hn ⟨i, hi⟩ ⟨p, hp⟩)
    (gf2Matrix_swapRows g.X hn ⟨i, hi⟩ ⟨p, hp⟩)

theorem gaussClear_tracks (hn : n ≤ 16) (h : g.Tracks n A) {i r : Nat} (hi : i < n) (hr : r < n) (hri : r ≠ i) :
    (gaussClear i g r).Tracks n A := by
  unfold gaussClear
  split
  · exact h.of_mul (isUnit_transvection (Fin.ne_of_val_ne hri : (⟨r, hr⟩ : Fin n) ≠ ⟨i, hi⟩))
      (gf2Matrix_xorRow g.W hn ⟨r, hr⟩ ⟨i, hi⟩) (gf2Matrix_xorRow g.X hn ⟨r, hr⟩ ⟨i, hi⟩)
  · exact h

theorem foldl_gaussClear_tracks (hn : n ≤ 16) (h : g.Tracks n A) {i : Nat} (hi : i < n) {rs : List Nat}
    (hrs : ∀ r ∈ rs, r < n ∧ r ≠ i) : (rs.foldl (gaussClear i) g).Tracks n A :=
  List.foldlRecOn rs (gaussClear i) h fun _ hk r hr => gaussClear_tracks hn hk hi (hrs r hr).1 (hrs r hr).2

end

/-! ### Clearing a column (42_inversion.md R92, R93) -/

theorem entryOf_gaussClear {i r : Nat} (g : GaussPair) (hr : r < 16) (q c : Nat) :
    entryOf (gaussClear i g r).W q c =
      (entryOf g.W q c ^^ (decide (q = r) && entryOf g.W q i && entryOf g.W i c)) := by
  unfold gaussClear
  by_cases hq : q = r
  · subst hq
    split
    case isTrue hb => simp [entryOf, rowOf_xorRow_self g.W hr, hb]
    case isFalse hb => simp [hb]
  · split
    case isTrue => simp [entryOf, rowOf_xorRow_of_ne g.W hr hq, hq]
    case isFalse => simp [hq]

/-- Everything that clearing some rows by the pivot row i does to W: each of these rows with a 1 in column i has row i
added, and no other row changes. -/
theorem entryOf_foldl_gaussClear {i : Nat} {rs : List Nat} (g : GaussPair) (hrs : ∀ r ∈ rs, r < 16 ∧ r ≠ i)
    (hp : entryOf g.W i i = true) (q c : Nat) :
    entryOf (rs.foldl (gaussClear i) g).W q c =
      (entryOf g.W q c ^^ (decide (q ∈ rs) && entryOf g.W q i && entryOf g.W i c)) := by
  induction rs generalizing g with
  | nil => simp
  | cons r rs ih =>
    obtain ⟨hr, hri⟩ := hrs r (by simp)
    have hstep := entryOf_gaussClear (i := i) g hr
    have hpivot : ∀ c, entryOf (gaussClear i g r).W i c = entryOf g.W i c := fun c => by simp [hstep, hri.symm]
    rw [List.foldl_cons, ih _ (fun r' hr' => hrs r' (by simp [hr'])) ((hpivot i).trans hp), hpivot, hstep, hstep, hp]
    by_cases hq : q = r <;> simp [hq]

/-! ### The forward pass (42_inversion.md R90 to R92) -/

/-- The first k columns of W are those of an upper triangular matrix with ones on the diagonal. -/
def Triangular (n k : Nat) (W : Rows) : Prop :=
  ∀ c, c < k → entryOf W c c = true ∧ ∀ r, c < r → r < n → entryOf W r c = false

/-- Everything a pivot step that succeeds can do. -/
theorem gaussPivot_some {n i : Nat} {g k : GaussPair} (h : gaussPivot n g i = some k) :
    (k = g ∧ entryOf g.W i i = true) ∨ ∃ p, i < p ∧ p < n ∧ entryOf g.W p i = true ∧ k = gaussSwap i g p := by
  unfold gaussPivot at h
  split at h
  case isTrue hb => exact .inl ⟨(Option.some.inj h).symm, hb⟩
  case isFalse =>
    obtain ⟨p, hp, rfl⟩ := Option.map_eq_some_iff.1 h
    have hmem := List.mem_range'_1.1 (List.mem_of_find?_eq_some hp)
    have hbit : entryOf g.W p i = true := List.find?_some (p := fun p => entryOf g.W p i) hp
    exact .inr ⟨p, by omega, pivotSearch_lt hp, hbit, rfl⟩

/-- A pivot step fails only if column i has no 1 from row i down. -/
theorem gaussPivot_none {n i : Nat} {g : GaussPair} (h : gaussPivot n g i = none) {r : Nat} (hir : i ≤ r) (hr : r < n) :
    entryOf g.W r i = false := by
  unfold gaussPivot at h
  split at h
  case isTrue => simp at h
  case isFalse hb =>
    rcases hir.eq_or_lt with rfl | hlt
    · simpa using hb
    · have hnone := List.find?_eq_none.1 (Option.map_eq_none_iff.1 h) r (List.mem_range'_1.2 (by omega))
      simpa using hnone

section
variable {n i : Nat} {A : Rows} {g k : GaussPair}

theorem gaussPivot_tracks (hn : n ≤ 16) (hg : g.Tracks n A) (hi : i < n) (h : gaussPivot n g i = some k) :
    k.Tracks n A := by
  obtain ⟨rfl, _⟩ | ⟨p, _, hp, _, rfl⟩ := gaussPivot_some h
  · exact hg
  · exact gaussSwap_tracks hn hg hi hp

/-- The pivot step keeps the columns before i, where the rows it swaps are zero, and puts a 1 on the diagonal. -/
theorem gaussPivot_triangular (hn : n ≤ 16) (hg : Triangular n i g.W) (hi : i < n) (h : gaussPivot n g i = some k) :
    Triangular n i k.W ∧ entryOf k.W i i = true := by
  obtain ⟨rfl, hb⟩ | ⟨p, hip, hp, hb, rfl⟩ := gaussPivot_some h
  · exact ⟨hg, hb⟩
  have hleft : rowOf (swapRows g.W i p) i = rowOf g.W p := rowOf_swapRows_left g.W (by omega) (by omega)
  have hright : rowOf (swapRows g.W i p) p = rowOf g.W i := rowOf_swapRows_right g.W (by omega) (by omega)
  have hother : ∀ q, q ≠ i → q ≠ p → rowOf (swapRows g.W i p) q = rowOf g.W q :=
    fun q => rowOf_swapRows_of_ne g.W (by omega) (by omega)
  refine ⟨fun c hc => ?_, by rwa [gaussSwap, entryOf, hleft]⟩
  obtain ⟨hdiag, hbelow⟩ := hg c hc
  refine ⟨by rwa [gaussSwap, entryOf, hother c (by omega) (by omega)], fun r hcr hr => ?_⟩
  rw [gaussSwap, entryOf]
  by_cases hri : r = i
  · rw [hri, hleft]; exact hbelow p (by omega) hp
  by_cases hrp : r = p
  · rw [hrp, hright]; exact hbelow i hc hi
  · rw [hother r hri hrp]; exact hbelow r hcr hr

/-- The rows below the pivot row are rows of the matrix, and not the pivot row. -/
theorem rows_after_valid : ∀ r ∈ List.range' (i + 1) (n - (i + 1)), r < n ∧ r ≠ i := by
  intro r hr
  refine ⟨lt_of_mem_rows_after hr, ?_⟩
  rw [List.mem_range'_1] at hr
  omega

/-- One column of the forward pass. -/
theorem forwardColumn_triangular (hn : n ≤ 16) (hg : Triangular n i g.W) (hi : i < n)
    (h : forwardColumn n g i = some k) : Triangular n (i + 1) k.W := by
  obtain ⟨m, hm, rfl⟩ := Option.map_eq_some_iff.1 h
  obtain ⟨htri, hpivot⟩ := gaussPivot_triangular hn hg hi hm
  have hentry := entryOf_foldl_gaussClear m
    (fun r hr => (rows_after_valid r hr).imp_left (lt_of_lt_of_le · hn)) hpivot
  intro c hc
  rcases Nat.lt_succ_iff_lt_or_eq.1 hc with hci | rfl
  · obtain ⟨hdiag, hbelow⟩ := htri c hci
    have hzero := hbelow i hci hi
    exact ⟨by simp [hentry, hdiag, hzero], fun r hcr hr => by simp [hentry, hbelow r hcr hr, hzero]⟩
  · refine ⟨by simp [hentry, hpivot], fun r hcr hr => ?_⟩
    have hmem : r ∈ List.range' (c + 1) (n - (c + 1)) := List.mem_range'_1.2 (by omega)
    simp [hentry, hpivot, -List.mem_range'_1, hmem]

theorem forwardColumn_tracks (hn : n ≤ 16) (hg : g.Tracks n A) (hi : i < n) (h : forwardColumn n g i = some k) :
    k.Tracks n A := by
  obtain ⟨m, hm, rfl⟩ := Option.map_eq_some_iff.1 h
  exact foldl_gaussClear_tracks hn (gaussPivot_tracks hn hg hi hm) hi rows_after_valid

/-- The first m columns, one more at a time. -/
theorem forwardColumns_succ (m : Nat) : (List.range (m + 1)).foldlM (forwardColumn n) g =
    ((List.range m).foldlM (forwardColumn n) g).bind fun h => forwardColumn n h m := by
  simp [List.range_succ, List.foldlM_append]

/-- Where the forward pass stands after m columns. -/
theorem forwardColumns_spec (hn : n ≤ 16) (hg : g.Tracks n A) {m : Nat} (hm : m ≤ n)
    (h : (List.range m).foldlM (forwardColumn n) g = some k) : k.Tracks n A ∧ Triangular n m k.W := by
  induction m generalizing k with
  | zero => exact ⟨Option.some.inj h ▸ hg, fun c hc => absurd hc c.not_lt_zero⟩
  | succ m ih =>
    rw [forwardColumns_succ] at h
    obtain ⟨l, hl, hk⟩ := Option.bind_eq_some_iff.1 h
    obtain ⟨htracks, htri⟩ := ih (by omega) hl
    exact ⟨forwardColumn_tracks hn htracks hm hk, forwardColumn_triangular hn htri hm hk⟩

/-- A matrix with no pivot in column i is singular: its first i + 1 columns are zero below row i, and in their square
the last row is zero. -/
theorem det_eq_zero_of_no_pivot {W : Rows} (hW : Triangular n i W) (hi : i < n)
    (hp : ∀ r, i ≤ r → r < n → entryOf W r i = false) : (gf2Matrix n W).det = 0 := by
  have hzero : ∀ r c : Fin n, i ≤ r.val → c.val ≤ i → gf2Matrix n W r c = 0 := by
    intro r c hir hci
    have hbit : entryOf W r c = false := by
      rcases hci.lt_or_eq with hlt | heq
      · exact (hW c hlt).2 r (by omega) r.isLt
      · rw [heq]; exact hp r hir r.isLt
    rw [gf2Matrix_apply, hbit, gf2_false]
  rw [Matrix.twoBlockTriangular_det _ (fun c : Fin n => c.val ≤ i) fun r hr c hc => hzero r c (by omega) hc]
  have hblock := Matrix.det_eq_zero_of_row_eq_zero
    (A := (gf2Matrix n W).toSquareBlockProp fun c : Fin n => c.val ≤ i) ⟨⟨i, hi⟩, le_rfl⟩
    fun c => hzero ⟨i, hi⟩ c.1 le_rfl c.2
  rw [hblock, zero_mul]

/-- Where the forward pass stops without a pivot, the source is singular. -/
theorem det_eq_zero_of_forwardColumns_none (hn : n ≤ 16) (hg : g.Tracks n A) {m : Nat} (hm : m ≤ n)
    (h : (List.range m).foldlM (forwardColumn n) g = none) : (gf2Matrix n A).det = 0 := by
  induction m with
  | zero => cases h
  | succ m ih =>
    rw [forwardColumns_succ] at h
    cases hl : (List.range m).foldlM (forwardColumn n) g with
    | none => exact ih (by omega) hl
    | some l =>
      obtain ⟨htracks, htri⟩ := forwardColumns_spec hn hg (by omega) hl
      rw [hl] at h
      have hpivot := Option.map_eq_none_iff.1 h
      have hdet : (gf2Matrix n l.X).det * (gf2Matrix n A).det = 0 := by
        rw [← Matrix.det_mul, htracks.mul_eq]
        exact det_eq_zero_of_no_pivot htri hm fun r => gaussPivot_none hpivot
      exact ((Matrix.isUnit_iff_isUnit_det _).1 htracks.isUnit).mul_right_eq_zero.1 hdet

end

/-! ### The backward pass (42_inversion.md R93) -/

/-- W is upper triangular with ones on the diagonal, and its columns from k on are zero above the diagonal too. -/
structure Reduced (n k : Nat) (W : Rows) : Prop where
  triangular : Triangular n n W
  above : ∀ c, k ≤ c → c < n → ∀ r, r < c → entryOf W r c = false

section
variable {n i : Nat} {A : Rows} {g : GaussPair}

/-- The rows above the pivot row are rows of the matrix, and not the pivot row. -/
theorem rows_before_valid (hi : i < n) : ∀ r ∈ List.range i, r < n ∧ r ≠ i := by
  intro r hr
  rw [List.mem_range] at hr
  omega

theorem backwardColumn_tracks (hn : n ≤ 16) (hg : g.Tracks n A) (hi : i < n) : (backwardColumn g i).Tracks n A :=
  foldl_gaussClear_tracks hn hg hi (rows_before_valid hi)

/-- The pivot row of a backward step has no other 1, so the step changes column i only. -/
theorem backwardColumn_reduced (hn : n ≤ 16) (hg : Reduced n (i + 1) g.W) (hi : i < n) :
    Reduced n i (backwardColumn g i).W := by
  have hpivot := (hg.triangular i hi).1
  have hentry : ∀ q c, entryOf (backwardColumn g i).W q c =
      (entryOf g.W q c ^^ (decide (q ∈ List.range i) && entryOf g.W q i && entryOf g.W i c)) :=
    entryOf_foldl_gaussClear g (fun r hr => (rows_before_valid hi r hr).imp_left (lt_of_lt_of_le · hn)) hpivot
  have hother : ∀ q c, c < n → c ≠ i → entryOf (backwardColumn g i).W q c = entryOf g.W q c := by
    intro q c hc hci
    have hrow : entryOf g.W i c = false := by
      rcases Nat.lt_or_gt_of_ne hci with hlt | hgt
      · exact (hg.triangular c hc).2 i hlt hi
      · exact hg.above c hgt hc i hgt
    simp [hentry, hrow]
  have hbelow : ∀ q, i ≤ q → entryOf (backwardColumn g i).W q i = entryOf g.W q i := fun q hq => by
    simp [hentry, hq.not_gt]
  constructor
  · intro c hc
    by_cases hci : c = i
    · subst hci
      refine ⟨(hbelow c le_rfl).trans hpivot, fun r hcr hr => ?_⟩
      exact (hbelow r hcr.le).trans ((hg.triangular c hc).2 r hcr hr)
    · rw [hother c c hc hci]
      exact ⟨(hg.triangular c hc).1, fun r hcr hr => (hother r c hc hci).trans ((hg.triangular c hc).2 r hcr hr)⟩
  · intro c hic hc r hrc
    rcases hic.eq_or_lt with rfl | hlt
    · simp [hentry, hpivot, hrc]
    · exact (hother r c hc hlt.ne').trans (hg.above c hlt hc r hrc)

/-- The backward pass from column m down to 1. -/
theorem backwardColumns_spec (hn : n ≤ 16) {m : Nat} (hm : m < n) (ht : g.Tracks n A) (hr : Reduced n (m + 1) g.W) :
    ((List.range' 1 m).reverse.foldl backwardColumn g).Tracks n A ∧
      Reduced n 1 ((List.range' 1 m).reverse.foldl backwardColumn g).W := by
  induction m generalizing g with
  | zero => exact ⟨ht, hr⟩
  | succ m ih =>
    rw [List.range'_1_concat, List.reverse_concat, Nat.add_comm 1 m, List.foldl_cons]
    exact ih (by omega) (backwardColumn_tracks hn ht hm) (backwardColumn_reduced hn hr hm)

theorem backwardPass_spec (hn : n ≤ 16) (h0 : 0 < n) (ht : g.Tracks n A) (htri : Triangular n n g.W) :
    (backwardPass n g).Tracks n A ∧ Reduced n 1 (backwardPass n g).W :=
  backwardColumns_spec hn (by omega) ht ⟨htri, fun c hc hcn => by omega⟩

/-- Once the backward pass is through, W is the identity. -/
theorem gf2Matrix_of_reduced {W : Rows} (h : Reduced n 1 W) : gf2Matrix n W = 1 := by
  ext r c
  rw [gf2Matrix_apply]
  rcases lt_trichotomy r c with hrc | rfl | hcr
  · rw [h.above c (by omega) c.isLt r hrc, Matrix.one_apply_ne hrc.ne, gf2_false]
  · rw [(h.triangular r r.isLt).1, Matrix.one_apply_eq, gf2_true]
  · rw [(h.triangular c c.isLt).2 r hcr r.isLt, Matrix.one_apply_ne hcr.ne', gf2_false]

end

/-! ### What Gauss-Jordan computes (42_inversion.md R95) -/

/-- B times A is the identity, for legal matrices of one dimension. -/
structure LeftInverse (B A : MatVal) : Prop where
  wf : B.wf
  dim_eq : B.dim = A.dim
  mul_eq : B.mul A = MatVal.identity A.dim

section
variable {A B : MatVal} {X : Rows}

theorem LeftInverse.gf2Matrix_mul_eq (hA : A.wf) (h : LeftInverse B A) :
    gf2Matrix A.dim B.rows * gf2Matrix A.dim A.rows = 1 :=
  (mul_eq_identity_iff h.wf hA h.dim_eq).1 h.mul_eq

/-- A left inverse is a right inverse. -/
theorem LeftInverse.symm (hA : A.wf) (h : LeftInverse B A) : LeftInverse A B where
  wf := hA
  dim_eq := h.dim_eq.symm
  mul_eq := by
    rw [mul_eq_identity_iff hA h.wf h.dim_eq.symm, h.dim_eq]
    exact mul_eq_one_comm.1 (h.gf2Matrix_mul_eq hA)

/-- A matrix has at most one left inverse. -/
theorem LeftInverse.unique {C : MatVal} (hA : A.wf) (hB : LeftInverse B A) (hC : LeftInverse C A) : B = C := by
  refine eq_of_gf2Matrix_eq hB.wf hC.wf (hB.dim_eq.trans hC.dim_eq.symm) ?_
  rw [hB.dim_eq]
  exact left_inv_eq_right_inv (hB.gf2Matrix_mul_eq hA) (mul_eq_one_comm.1 (hC.gf2Matrix_mul_eq hA))

theorem leftInverse_of_gaussJordan (hA : A.wf) (h : gaussJordan A = some X) : LeftInverse ⟨A.dim, X⟩ A := by
  have hwf := gaussJordan_wf hA h
  refine ⟨hwf, rfl, (mul_eq_identity_iff hwf hA rfl).2 ?_⟩
  obtain ⟨g, hg, rfl⟩ := Option.map_eq_some_iff.1 h
  obtain ⟨htracks, htri⟩ := forwardColumns_spec hA.1.2 (gaussStart_tracks hA) le_rfl hg
  obtain ⟨htracks', hred⟩ := backwardPass_spec hA.1.2 hA.1.1 htracks htri
  exact htracks'.mul_eq.trans (gf2Matrix_of_reduced hred)

theorem not_leftInverse_of_gaussJordan_none (hA : A.wf) (h : gaussJordan A = none) : ¬LeftInverse B A := by
  intro hB
  have hdet : (gf2Matrix A.dim A.rows).det = 0 :=
    det_eq_zero_of_forwardColumns_none hA.1.2 (gaussStart_tracks hA) le_rfl (Option.map_eq_none_iff.1 h)
  exact (Matrix.isUnit_det_of_left_inverse (hB.gf2Matrix_mul_eq hA)).ne_zero hdet

/-- Gauss-Jordan returns X exactly when X is the left inverse. -/
theorem gaussJordan_eq_some_iff (hA : A.wf) : gaussJordan A = some X ↔ LeftInverse ⟨A.dim, X⟩ A := by
  refine ⟨leftInverse_of_gaussJordan hA, fun hX => ?_⟩
  cases h : gaussJordan A with
  | none => exact absurd hX (not_leftInverse_of_gaussJordan_none hA h)
  | some Y => exact congrArg some (MatVal.mk.inj ((leftInverse_of_gaussJordan hA h).unique hA hX)).2

/-- Gauss-Jordan returns something exactly when there is a left inverse. -/
theorem exists_gaussJordan_iff (hA : A.wf) : (∃ X, gaussJordan A = some X) ↔ ∃ B, LeftInverse B A := by
  refine ⟨fun ⟨X, hX⟩ => ⟨_, leftInverse_of_gaussJordan hA hX⟩, fun ⟨B, hB⟩ => ⟨B.rows, ?_⟩⟩
  rw [gaussJordan_eq_some_iff hA, ← hB.dim_eq]
  exact hB

/-- To have a two-sided inverse is to have a left inverse. -/
theorem exists_twoSided_iff (hA : A.wf) :
    (∃ B : MatVal, B.wf ∧ B.dim = A.dim ∧ B.mul A = MatVal.identity A.dim ∧ A.mul B = MatVal.identity A.dim) ↔
      ∃ B, LeftInverse B A := by
  constructor
  · rintro ⟨B, hB, hd, hBA, _⟩
    exact ⟨B, hB, hd, hBA⟩
  · rintro ⟨B, hB⟩
    exact ⟨B, hB.wf, hB.dim_eq, hB.mul_eq, hB.dim_eq ▸ (hB.symm hA).mul_eq⟩

end

/-- Settles O35, by `leftInverse_of_gaussJordan`: X A = W throughout, and W ends as the identity. -/
theorem gaussJordanGivesALeftInverse : Obligations.GaussJordanGivesALeftInverse := by
  intro A X hA h
  obtain ⟨hwf, _, hmul⟩ := leftInverse_of_gaussJordan hA h
  exact ⟨hwf, hmul⟩

/-- Settles O36: a left inverse over a field is two-sided, and where no pivot is found the determinant is 0. -/
theorem gaussJordanInvertsExactlyTheInvertible : Obligations.GaussJordanInvertsExactlyTheInvertible := by
  intro A hA
  have hiff := (exists_gaussJordan_iff hA).trans (exists_twoSided_iff hA).symm
  refine ⟨hiff, fun X hX => ?_, ?_⟩
  · have hleft := leftInverse_of_gaussJordan hA hX
    exact ⟨hleft.mul_eq, (hleft.symm hA).mul_eq⟩
  · rw [← hiff, Option.eq_none_iff_forall_ne_some, not_exists]

/-! ### INV (42_inversion.md R88, R94, R96) -/

section
variable {s : State} {a : MReg} {A B : MatVal}

theorem exec_inv (d : MReg) (hA : s.getM a = some A) :
    exec (.inv d a) s = .next (s.setInverse d ((gaussJordan A).map fun X => ⟨A.dim, X⟩)) := by
  simp [exec, execInv, matOperand_of_some hA]

/-- INV writes a left inverse of its source wherever there is one. -/
theorem exec_inv_of_leftInverse (d : MReg) (hA : s.getM a = some A) (hwf : A.wf) (hB : LeftInverse B A) :
    exec (.inv d a) s = .next (s.setInverse d (some B)) := by
  obtain ⟨X, hX⟩ := (exists_gaussJordan_iff hwf).2 ⟨B, hB⟩
  rw [exec_inv d hA, hX, Option.map_some, (leftInverse_of_gaussJordan hwf hX).unique hwf hB]

theorem getM_setInverse_self (d : MReg) (c : MCell) : (s.setInverse d c).getM d = c := getM_setM_self s d c

end

/-- Settles O37: the source has one left inverse and INV writes it, or it has none and no pivot was found. -/
theorem invWritesTheInverseOrEmpty : Obligations.InvWritesTheInverseOrEmpty := by
  intro d a A s hA hwf
  refine ⟨fun B hB hd hmul => exec_inv_of_leftInverse d hA hwf ⟨hB, hd, hmul⟩, fun hno => ?_⟩
  cases h : gaussJordan A with
  | none => rw [exec_inv d hA, h]; rfl
  | some X =>
    obtain ⟨hX, hd, hmul⟩ := leftInverse_of_gaussJordan hwf h
    exact absurd ⟨_, hX, hd, hmul⟩ hno

/-- Settles O38: NI = 0 says that the first INV wrote an inverse X of A, and A is the left inverse of X. -/
theorem invertTwiceReturnsTheMatrix : Obligations.InvertTwiceReturnsTheMatrix := by
  intro d e a A s u hA hwf hu hni
  obtain rfl := Host.Outcome.next.inj ((exec_inv d hA).symm.trans hu)
  obtain ⟨X, hX⟩ : ∃ X, gaussJordan A = some X := by
    cases h : gaussJordan A with
    | none => simp [h] at hni
    | some X => exact ⟨X, rfl⟩
  have hleft := leftInverse_of_gaussJordan hwf hX
  rw [hX, Option.map_some]
  exact ⟨_, exec_inv_of_leftInverse e (getM_setInverse_self d _) hleft.wf (hleft.symm hwf), rfl,
    getM_setInverse_self e _⟩

end Sys2Proof.Machine

/-! PROOF. Exceptions (60_exceptions.md): how the block's turn ends (R98), which error a command raises and how it is
recorded (R100, R101), what becomes of a CMD write (R97), the discarding of commands after an error (R102), OVERRUN (R103),
the clearing of an error (R105), and a completion in the cycle of a host access (R108). -/

namespace Sys2Proof.Machine

section
variable {s t : State} {i : Instr} {w : Word}

/-! ### The block's turn (60_exceptions.md R98) -/

/-- Settles O7. -/
theorem stepRunsDecodedCommand : Obligations.StepRunsDecodedCommand := by
  intro s w i turn hp hd
  rw [step_of_blockTurnNext turn, blockStep_some (s := popEvent s) hp, executeWord_ok hd]

/-- A pending word that decodes completes: the state its rule leaves, with the latch freed. -/
theorem step_of_command (turn : BlockTurnNext s) (hp : s.pending = some w) (hd : decode w = .ok i)
    (h : exec i (popEvent s) = .next t) : step s = .next t.retire := by
  rw [stepRunsDecodedCommand s w i turn hp hd, h, retireOutcome_next]

/-- A turn of an idle block only uses up its event. -/
theorem step_of_idle_turn (turn : BlockTurnNext s) (hp : s.pending = none) : step s = .next (popEvent s) :=
  (step_of_blockTurnNext turn).trans (blockStep_none (s := popEvent s) hp)

/-- Settles O8: every command answers with a next state, and an illegal word is `step_of_illegal`. -/
theorem blockStepCompletesPendingCommand : Obligations.BlockStepCompletesPendingCommand := by
  refine fun s turn => ⟨step_of_idle_turn turn, fun w i hp hd => ?_, fun w e hp hd => step_of_illegal turn hp hd⟩
  obtain ⟨u, hu⟩ := exec_next i (popEvent s)
  exact ⟨u, hu, step_of_command turn hp hd hu⟩

/-! ### Which error applies (60_exceptions.md R99, R100)

The operands a command reads hold values unless EMPTY_OPERAND applies; the statements about each command say what it then
raises. -/

theorem vecOperand_holds_value {r : VReg} (h : ¬emptyApplies i s) (hr : r ∈ readsVec i) : ∃ x, s.getV r = some x :=
  Option.ne_none_iff_exists'.1 fun hn => h (.inl ⟨r, hr, hn⟩)

theorem matOperand_holds_value {r : MReg} (h : ¬emptyApplies i s) (hr : r ∈ readsMat i) : ∃ A, s.getM r = some A :=
  Option.ne_none_iff_exists'.1 fun hn => h (.inr ⟨r, hr, hn⟩)

/-- A length or dimension field is legal unless RANGE applies to it. -/
theorem legalSize_of_not_range {n : Nat} (h : ¬(n = 0 ∨ 16 < n)) : legalSize n :=
  ⟨by omega, show n ≤ 16 by omega⟩

/-- Where no operand is Empty, RANGE is the error raised. -/
theorem raisesError_range (he : ¬emptyApplies i s) (hr : rangeApplies i s) : RaisesError i s .range := by
  cases i with
  | ldv d imm len =>
    obtain ⟨-, hrange, -⟩ := ldvLoadsOrRefuses d imm len s
    exact hrange hr
  | ident d n =>
    obtain ⟨-, hrange⟩ := identLoadsTheIdentity d n s
    exact hrange hr
  | mwr d row a =>
    obtain ⟨A, hA, hrow⟩ := hr
    obtain ⟨x, hx⟩ := vecOperand_holds_value (r := a) he (by simp [readsVec])
    obtain ⟨-, -, hrange, -⟩ := mwrWritesTheRow d row a s
    exact hrange x A hx hA hrow
  | mrd d a row =>
    obtain ⟨A, hA, hrow⟩ := hr
    obtain ⟨-, -, hrange⟩ := mrdReadsTheRow d a row s
    exact hrange A hA hrow
  | swapr d row row2 =>
    obtain ⟨A, hA, hrow⟩ := hr
    obtain ⟨-, -, hrange⟩ := swaprSwapsRows d row row2 s
    exact hrange A hA hrow
  | xorr d row row2 =>
    obtain ⟨A, hA, hrow⟩ := hr
    obtain ⟨-, -, hrange⟩ := xorrAddsTheRow d row row2 s
    exact hrange A hA hrow
  | rdv _ | vxor _ _ _ | vdot _ _ _ | vmul _ _ _ | mmov _ _ | inv _ _ => exact hr.elim

/-- Where RANGE does not apply either, DIM_MISMATCH is the error raised. -/
theorem raisesError_dimMismatch (hr : ¬rangeApplies i s) (hm : dimApplies i s) : RaisesError i s .dimMismatch := by
  cases i with
  | ldv d imm len =>
    obtain ⟨h1, h16⟩ := legalSize_of_not_range hr
    obtain ⟨-, -, hdim⟩ := ldvLoadsOrRefuses d imm len s
    exact hdim h1 h16 hm
  | vxor d a b =>
    obtain ⟨x, y, hx, hy, hne⟩ := hm
    exact raisesError_of_body rfl (bind_vec_vec_mismatch hx hy hne)
  | vdot d a b =>
    obtain ⟨x, y, hx, hy, hne⟩ := hm
    exact raisesError_of_body rfl (bind_vec_vec_mismatch hx hy hne)
  | vmul d a b =>
    obtain ⟨x, A, hx, hA, hne⟩ := hm
    exact raisesError_of_body rfl (bind_vec_mat_mismatch hx hA hne)
  | mwr d row a =>
    obtain ⟨x, A, hx, hA, hne⟩ := hm
    obtain ⟨-, -, -, hdim⟩ := mwrWritesTheRow d row a s
    exact hdim x A hx hA (Nat.lt_of_not_le fun h => hr ⟨A, hA, h⟩) hne
  | rdv _ | ident _ _ | mmov _ _ | mrd _ _ _ | swapr _ _ _ | xorr _ _ _ | inv _ _ => exact hm.elim

/-- A command to which no error applies completes, with ERR and ERRCMD as they were. -/
theorem exec_completes (he : ¬emptyApplies i s) (hr : ¬rangeApplies i s) (hm : ¬dimApplies i s) :
    ∃ t, exec i s = .next t ∧ t.err = s.err ∧ t.errcmd = s.errcmd := by
  cases i with
  | ldv d imm len =>
    have hfits : imm >>> len = 0#16 := (shiftRight_eq_zero_iff_lt imm len).2 (Nat.lt_of_not_le hm)
    exact ⟨_, exec_ldv d (legalSize_of_not_range hr) hfits, rfl, rfl⟩
  | rdv a =>
    obtain ⟨x, hx⟩ := vecOperand_holds_value (r := a) he (by simp [readsVec])
    exact ⟨_, exec_rdv hx, rfl, rfl⟩
  | vxor d a b =>
    obtain ⟨x, hx⟩ := vecOperand_holds_value (r := a) he (by simp [readsVec])
    obtain ⟨y, hy⟩ := vecOperand_holds_value (r := b) he (by simp [readsVec])
    have hlen : x.len = y.len := by simpa [dimApplies, hx, hy] using hm
    exact ⟨_, exec_vxor d hx hy hlen, rfl, rfl⟩
  | vdot d a b =>
    obtain ⟨x, hx⟩ := vecOperand_holds_value (r := a) he (by simp [readsVec])
    obtain ⟨y, hy⟩ := vecOperand_holds_value (r := b) he (by simp [readsVec])
    have hlen : x.len = y.len := by simpa [dimApplies, hx, hy] using hm
    exact ⟨_, exec_vdot d hx hy hlen, rfl, rfl⟩
  | vmul d a b =>
    obtain ⟨x, hx⟩ := vecOperand_holds_value (r := a) he (by simp [readsVec])
    obtain ⟨A, hA⟩ := matOperand_holds_value (r := b) he (by simp [readsMat])
    have hlen : x.len = A.dim := by simpa [dimApplies, hx, hA] using hm
    exact ⟨_, exec_vmul d hx hA hlen, rfl, rfl⟩
  | ident d n => exact ⟨_, exec_ident d (legalSize_of_not_range hr), rfl, rfl⟩
  | mmov d a =>
    obtain ⟨A, hA⟩ := matOperand_holds_value (r := a) he (by simp [readsMat])
    exact ⟨_, exec_mmov d hA, rfl, rfl⟩
  | mwr d row a =>
    obtain ⟨x, hx⟩ := vecOperand_holds_value (r := a) he (by simp [readsVec])
    obtain ⟨A, hA⟩ := matOperand_holds_value (r := d) he (by simp [readsMat])
    have hrow : row < A.dim := by simpa [rangeApplies, hA] using hr
    have hlen : x.len = A.dim := by simpa [dimApplies, hx, hA] using hm
    exact ⟨_, exec_mwr hx hA hrow hlen, rfl, rfl⟩
  | mrd d a row =>
    obtain ⟨A, hA⟩ := matOperand_holds_value (r := a) he (by simp [readsMat])
    have hrow : row < A.dim := by simpa [rangeApplies, hA] using hr
    exact ⟨_, exec_mrd d hA hrow, rfl, rfl⟩
  | swapr d row row2 =>
    obtain ⟨A, hA⟩ := matOperand_holds_value (r := d) he (by simp [readsMat])
    obtain ⟨hrow, hrow2⟩ : row < A.dim ∧ row2 < A.dim := by simpa [rangeApplies, hA] using hr
    exact ⟨_, exec_swapr hA hrow hrow2, rfl, rfl⟩
  | xorr d row row2 =>
    obtain ⟨A, hA⟩ := matOperand_holds_value (r := d) he (by simp [readsMat])
    obtain ⟨hrow, hrow2⟩ : row < A.dim ∧ row2 < A.dim := by simpa [rangeApplies, hA] using hr
    exact ⟨_, exec_xorr hA hrow hrow2, rfl, rfl⟩
  | inv d a =>
    obtain ⟨A, hA⟩ := matOperand_holds_value (r := a) he (by simp [readsMat])
    exact ⟨_, exec_inv d hA, rfl, rfl⟩

/-- A command that raises an error of its own records it with the pending word. -/
theorem step_of_raisesError {c : ErrorCode} (turn : BlockTurnNext s) (hp : s.pending = some w) (hd : decode w = .ok i)
    (h : RaisesError i (popEvent s) c) : step s = .next { afterError (popEvent s) c w with pending := none } := by
  rw [step_of_command turn hp hd h, encode_of_decode hd]
  rfl

theorem rangeApplies_popEvent : rangeApplies i (popEvent s) ↔ rangeApplies i s := by cases i <;> rfl

theorem dimApplies_popEvent : dimApplies i (popEvent s) ↔ dimApplies i s := by cases i <;> rfl

/-- Settles O11: an illegal word is `step_of_illegal`, an Empty operand is O10, and the rest is by which of RANGE and
DIM_MISMATCH apply. -/
theorem errorPriority : Obligations.ErrorPriority := by
  refine fun s w turn hp => ⟨fun ⟨e, hd⟩ => step_of_illegal turn hp hd, fun i hd => ?_⟩
  have raises {c : ErrorCode} (h : RaisesError i (popEvent s) c) := step_of_raisesError turn hp hd h
  refine ⟨fun he => ?_, fun he hr => ?_, fun _ hr hm => ?_, fun he hr hm => ?_⟩
  · exact raises (emptyOperandIsNeverRead i (popEvent s) he)
  · exact raises (raisesError_range (s := popEvent s) he (rangeApplies_popEvent.2 hr))
  · exact raises (raisesError_dimMismatch (mt rangeApplies_popEvent.1 hr) (dimApplies_popEvent.2 hm))
  · obtain ⟨t, ht, herr, hcmd⟩ := exec_completes (s := popEvent s) he (mt rangeApplies_popEvent.1 hr)
      (mt dimApplies_popEvent.1 hm)
    exact ⟨t.retire, step_of_command turn hp hd ht, herr, hcmd, rfl⟩

/-! ### Precise errors (60_exceptions.md R101) -/

/-- A command to which an error applies raises one of EMPTY_OPERAND, RANGE and DIM_MISMATCH. -/
theorem raisesError_of_applies (h : emptyApplies i s ∨ rangeApplies i s ∨ dimApplies i s) :
    ∃ c : ErrorCode, (c.code = 1#4 ∨ c.code = 2#4 ∨ c.code = 4#4) ∧ RaisesError i s c := by
  by_cases he : emptyApplies i s
  · exact ⟨.emptyOperand, .inr (.inl rfl), emptyOperandIsNeverRead i s he⟩
  by_cases hr : rangeApplies i s
  · exact ⟨.range, .inr (.inr rfl), raisesError_range he hr⟩
  · exact ⟨.dimMismatch, .inl rfl, raisesError_dimMismatch hr ((h.resolve_left he).resolve_left hr)⟩

/-- Settles O12: an error that applies is raised (`raisesError_of_applies`) and recorded or not by ERR
(`State.raiseError_cases`). -/
theorem errorsArePrecise : Obligations.ErrorsArePrecise := by
  intro i s
  by_cases h : emptyApplies i s ∨ rangeApplies i s ∨ dimApplies i s
  · obtain ⟨c, hc, hraise⟩ := raisesError_of_applies h
    refine ⟨_, hraise, .inr ⟨h, ?_⟩⟩
    exact (s.raiseError_cases c (encode i)).imp_right fun ⟨h0, ht⟩ => ⟨h0, c.code, hc, ht⟩
  · obtain ⟨he, hr, hm⟩ : ¬emptyApplies i s ∧ ¬rangeApplies i s ∧ ¬dimApplies i s := by simpa only [not_or] using h
    obtain ⟨t, ht, herr, hcmd⟩ := exec_completes he hr hm
    exact ⟨t, ht, .inl ⟨he, hr, hm, herr, hcmd⟩⟩

/-! ### CMD writes (60_exceptions.md R97) and ERRCLR (R105) -/

theorem offerCommand_of_busy (w : Word) (hp : s.pending ≠ none) : offerCommand w s = s.raiseError .overrun w := by
  obtain ⟨p, hp⟩ := Option.ne_none_iff_exists'.1 hp
  rw [offerCommand, hp]

theorem offerCommand_of_err (w : Word) (hp : s.pending = none) (h0 : s.err ≠ 0#4) : offerCommand w s = s := by
  rw [offerCommand, hp]
  exact if_neg h0

theorem offerCommand_of_ready (w : Word) (hp : s.pending = none) (h0 : s.err = 0#4) :
    offerCommand w s = s.latch w := by
  rw [offerCommand, hp]
  exact if_pos h0

/-- Settles O48, by what is pending and by ERR. -/
theorem cmdWriteAcceptsDropsOrDiscards : Obligations.CmdWriteAcceptsDropsOrDiscards := by
  intro s w es ha
  have hs : step s = .next (offerCommand w (popEvent s)) := by
    rw [step_writeEvent .cmd ha, withAgenda_eq_popEvent ha, hostWrite]
  have hpop : popEvent s = { s with agenda := es } := (withAgenda_eq_popEvent ha).symm
  refine ⟨fun hp h0 => ?_, fun hp h0 => ?_, fun hp h0 => ?_, fun hp h0 => ?_⟩
  · rw [hs, offerCommand_of_busy (s := popEvent s) w hp, State.raiseError_of_zero (popEvent s) _ _ h0, hpop]; rfl
  · rw [hs, offerCommand_of_busy (s := popEvent s) w hp, State.raiseError_of_ne (popEvent s) _ _ h0, hpop]
  · rw [hs, offerCommand_of_err (s := popEvent s) w hp h0, hpop]
  · rw [hs, offerCommand_of_ready (s := popEvent s) w hp h0, hpop]; rfl

/-- Settles O50: ERRCLR is `writeCtrl_of_errclr`, and the CMD write after it finds ERR = 0. -/
theorem errorClearLetsCommandsInAgain : Obligations.ErrorClearLetsCommandsInAgain := by
  intro s v w es ha h0 h1
  have hs : step s = .next (s.withAgenda (writeEvent .cmd w :: es)).clearError := by
    rw [step_writeEvent .ctrl ha, hostWrite, writeCtrl_of_errclr h0 h1]; rfl
  refine ⟨_, hs, rfl, rfl, rfl, rfl, rfl, rfl, rfl, fun hp => ?_⟩
  exact ⟨_, step_cmdWrite (s := s.clearError) es s.readLog s.draws hp rfl, rfl⟩

/-- Settles O39: INV writes what GaussJordan found, here nothing, and ERR stays 0 for the CMD write after it. -/
theorem singularInvIsNoError : Obligations.SingularInvIsNoError := by
  intro s w v d a A es ha hp hd hA hnone
  have hexec : exec (.inv d a) (popEvent s) = .next ((popEvent s).setInverse d none) := by
    rw [exec_inv (s := popEvent s) d hA, hnone]; rfl
  refine ⟨_, step_of_command (.inr ⟨_, ha⟩) hp hd hexec, getM_setInverse_self (s := popEvent s) d none, rfl, rfl, rfl,
    rfl, fun h0 => ?_⟩
  rw [popEvent, ha]
  exact ⟨_, step_cmdWrite (s := (s.setInverse d none).retire) es s.readLog s.draws rfl h0, rfl⟩

/-! ### After an error (60_exceptions.md R102) -/

theorem SameBlock.trans {u : State} (h : SameBlock s t) (h' : SameBlock t u) : SameBlock s u where
  vr := h'.vr.trans h.vr
  mr := h'.mr.trans h.mr
  ni := h'.ni.trans h.ni
  err := h'.err.trans h.err
  result := h'.result.trans h.result
  errcmd := h'.errcmd.trans h.errcmd
  pending := h'.pending.trans h.pending

theorem sameBlock_popEvent (s : State) : SameBlock s (popEvent s) := ⟨rfl, rfl, rfl, rfl, rfl, rfl, rfl⟩

/-- With nothing pending and ERR nonzero, a write to a register other than CTRL is ignored or discarded. -/
theorem hostWrite_after_error {r : WindowReg} (hr : r ≠ .ctrl) (hp : s.pending = none) (h0 : s.err ≠ 0#4) (w : Word) :
    hostWrite r w s = s := by
  rcases hostWrite_cases r w s with ⟨_, e⟩ | ⟨h, _⟩ | ⟨_, _, e⟩
  · exact e.trans (offerCommand_of_err w hp h0)
  · exact absurd h hr
  · exact e

/-- With nothing pending and ERR nonzero, a step that is no reset and no CTRL write leaves the block as it is. -/
theorem step_after_error (hp : s.pending = none) (h0 : s.err ≠ 0#4) (hk : ∀ e ∈ s.agenda, e.keepsError = true)
    (h : step s = .next t) : SameBlock s t ∧ t.agenda = s.agenda.tail := by
  cases ha : s.agenda with
  | nil =>
    cases (step_of_idle_turn (.inl ha) hp).symm.trans h
    exact ⟨sameBlock_popEvent s, by simp [ha]⟩
  | cons e es =>
    have hke : e.keepsError = true := hk e (by simp [ha])
    cases e with
    | rst during => cases hke
    | blockTurn =>
      cases (step_of_idle_turn (.inr ⟨es, ha⟩) hp).symm.trans h
      exact ⟨sameBlock_popEvent s, by simp [ha]⟩
    | access a =>
      rw [step_access ha] at h
      rcases hostAccess_cases a (s.withAgenda es) with ⟨_, e⟩ | ⟨off, _, e⟩ | ⟨off, w, rfl, e⟩ <;> rw [e] at h <;> cases h
      · obtain ⟨hsame, hrest, _⟩ := hostRead_frame (windowReg off) s es
        exact ⟨hsame, hrest⟩
      · have hr : windowReg off ≠ .ctrl := by simpa [Event.keepsError] using hke
        rw [hostWrite_after_error (s := s.withAgenda es) hr hp h0]
        exact ⟨⟨rfl, rfl, rfl, rfl, rfl, rfl, rfl⟩, rfl⟩

/-- A run of k + 1 steps that answers is a step and a run of k. -/
theorem step_of_run_succ {k : Nat} (h : Host.Core.run Sys2Proof.core (k + 1) s = .next t) :
    ∃ u, step s = .next u ∧ Host.Core.run Sys2Proof.core k u = .next t := by
  cases hs : step s with
  | next u => exact ⟨u, rfl, run_of_step k hs ▸ h⟩
  | fault f => cases f
  | refused r => simp [Host.Core.run, show Sys2Proof.core.step s = .refused r from hs] at h

/-- Settles O15, by induction on the steps of the run: each leaves the block, so the next again finds ERR nonzero and
nothing pending. -/
theorem commandsAfterAnErrorAreDiscarded : Obligations.CommandsAfterAnErrorAreDiscarded := by
  intro k
  induction k with
  | zero =>
    intro s t _ _ _ h
    cases h
    exact ⟨rfl, rfl, rfl, rfl, rfl, rfl, rfl⟩
  | succ k ih =>
    intro s t h0 hp hk h
    obtain ⟨u, hu, hrun⟩ := step_of_run_succ h
    obtain ⟨hsame, hrest⟩ := step_after_error hp h0 hk hu
    have hku : ∀ e ∈ u.agenda, e.keepsError = true := fun e he => hk e (List.mem_of_mem_tail (hrest ▸ he))
    exact hsame.trans (ih u t (hsame.err ▸ h0) (hsame.pending.trans hp) hku hrun)

/-! ### OVERRUN (60_exceptions.md R103)

No command reads ERR or ERRCMD, and with ERR nonzero none records an error; so a command comes out the same, but for the
record, whatever nonzero error is recorded when it starts. -/

/-- s with error number e of word v recorded. -/
def State.withRecord (s : State) (e : BitVec 4) (v : Word) : State := { s with err := e, errcmd := v }

theorem raiseError_withRecord {e : BitVec 4} (he : e ≠ 0#4) (v : Word) (c : ErrorCode) (w : Word) :
    (s.withRecord e v).raiseError c w = (s.raiseError c w).withRecord e v := by
  rw [State.raiseError_of_ne (s.withRecord e v) c w he]
  rcases s.raiseError_cases c w with ⟨_, h⟩ | ⟨_, h⟩
  · rw [h]
  · rw [h]; rfl

theorem finish_withRecord {e : BitVec 4} (he : e ≠ 0#4) (v : Word) {r r' : Except ErrorCode State}
    (h : finish i s r = .next t) (hr : r' = (fun u => u.withRecord e v) <$> r) :
    finish i (s.withRecord e v) r' = .next (t.withRecord e v) := by
  subst hr
  rcases finish_next.1 h with rfl | ⟨c, rfl, rfl⟩
  · rfl
  · exact congrArg Host.Outcome.next (raiseError_withRecord he v c _)

/-- A command comes out the same, but for the record, with a nonzero error recorded before it. -/
theorem exec_withRecord {e : BitVec 4} (he : e ≠ 0#4) (v : Word) (h : exec i s = .next t) :
    exec i (s.withRecord e v) = .next (t.withRecord e v) := by
  cases i <;> refine finish_withRecord he v h ?_ <;> simp only [map_bind, map_pure] <;> rfl

/-- The block's turn comes out the same, but for the record, with a nonzero error recorded before it. -/
theorem blockStep_withRecord {e : BitVec 4} (he : e ≠ 0#4) (v : Word) (h : blockStep s = .next t) :
    blockStep (s.withRecord e v) = .next (t.withRecord e v) := by
  rcases blockStep_cases h with ⟨hp, rfl⟩ | ⟨w, i, u, hp, hd, hu, rfl⟩ | ⟨w, reject, hp, hd, rfl⟩
  · exact blockStep_none hp
  · rw [blockStep_some (s := s.withRecord e v) hp, executeWord_ok hd, exec_withRecord he v hu]
    rfl
  · rw [blockStep_some (s := s.withRecord e v) hp, executeWord_error hd, raiseError_withRecord he]
    rfl

/-- Raising an error leaves a nonzero error recorded: the new one if ERR was 0, else the one there was. -/
theorem raiseError_eq_withRecord (s : State) (c : ErrorCode) (w : Word) :
    s.raiseError c w = s.withRecord (if s.err = 0#4 then c.code else s.err) (if s.err = 0#4 then w else s.errcmd) := by
  rcases s.raiseError_cases c w with ⟨h, e⟩ | ⟨h, e⟩ <;> rw [e]
  · rw [if_neg h, if_neg h]; rfl
  · rw [if_pos h, if_pos h]; rfl

/-- The error recorded once one has been raised is not 0. -/
theorem recorded_ne_zero (e : BitVec 4) (c : ErrorCode) : (if e = 0#4 then c.code else e) ≠ 0#4 := by
  split
  · exact c.code_range.1
  · assumption

/-- The block's turn comes out the same, but for the record, when an error is raised before it. -/
theorem blockStep_raiseError (c : ErrorCode) (w : Word) (h : blockStep s = .next t) :
    blockStep (s.raiseError c w) =
      .next (t.withRecord (if s.err = 0#4 then c.code else s.err) (if s.err = 0#4 then w else s.errcmd)) := by
  rw [raiseError_eq_withRecord]
  exact blockStep_withRecord (recorded_ne_zero s.err c) _ h

/-- With no event left the block's turn is the step, as it would come out at any point of the agenda. -/
theorem step_alone (h : blockStep s = .next t) :
    step { s with agenda := [] } = .next (t.inWorld [] s.readLog s.draws) :=
  (step_nil rfl).trans (blockStep_inWorld [] s.readLog s.draws h)

/-- A CMD write to a busy block is dropped as OVERRUN. -/
theorem step_cmdWrite_of_busy (es : List Event) (log : List Word) (n : Nat) (hp : s.pending ≠ none) :
    step (s.inWorld (writeEvent .cmd w :: es) log n) = .next ((s.raiseError .overrun w).inWorld es log n) := by
  rw [step_writeEvent .cmd rfl, ← raiseError_inWorld]
  exact congrArg Host.Outcome.next (offerCommand_of_busy w hp)

/-- Settles O16: the dropped write leaves a nonzero error recorded, and with it the pending command comes out the same but
for the record (`blockStep_raiseError`). -/
theorem overrunDoesNotDisturbThePendingCommand : Obligations.OverrunDoesNotDisturbThePendingCommand := by
  intro s p w es hp ha
  obtain ⟨u, hu⟩ := blockStep_next s
  have hbusy : s.pending ≠ none := by simp [hp]
  have hrun : Host.Core.run Sys2Proof.core 2
      (s.inWorld (.access (.write 0x04#5 4 w) :: .blockTurn :: es) s.readLog s.draws) =
      .next ((u.withRecord (if s.err = 0#4 then 5#4 else s.err) (if s.err = 0#4 then w else s.errcmd)).inWorld
        es s.readLog s.draws) :=
    (run_of_step 1 (step_cmdWrite_of_busy _ _ _ hbusy)).trans
      (run_of_step 0 (step_turn es _ _ (blockStep_raiseError .overrun w hu)))
  rw [← ha] at hrun
  exact ⟨_, _, step_alone hu, hrun, rfl, rfl, rfl, rfl, (pending_of_blockStep hu :), rfl, rfl, rfl⟩

/-! ### A completion in the cycle of a host access (60_exceptions.md R108) -/

/-- What the access of a clock cycle with sel = 1 does (10_state.md R38). -/
def PortCycle.perform (p : PortCycle) (s : State) : State :=
  if p.we then hostWrite (windowReg (p.addr ++ 0#2)) p.wdata s else hostRead (windowReg (p.addr ++ 0#2)) s

theorem PortCycle.perform_read {p : PortCycle} (h : p.we = false) (s : State) :
    p.perform s = hostRead (windowReg (p.addr ++ 0#2)) s := by
  rw [PortCycle.perform, h]; rfl

theorem PortCycle.perform_write {p : PortCycle} (h : p.we = true) (s : State) :
    p.perform s = hostWrite (windowReg (p.addr ++ 0#2)) p.wdata s := if_pos h

/-- A word offset at the ports is a byte offset that is a multiple of 4. -/
theorem portOffset_aligned (addr : BitVec 3) : ((addr ++ 0#2 : BitVec 5).extractLsb' 0 2 == 0#2) = true := by
  revert addr; decide

/-- A cycle with rst = 0 and sel = 1 in which nothing completes is one step, its access. -/
theorem step_portCycle {p : PortCycle} (hrst : p.rst = false) (hsel : p.sel = true) (log : List Word) (n : Nat) :
    step (s.inWorld (p.events false) log n) = .next (p.perform (s.inWorld [] log n)) := by
  cases hwe : p.we with
  | false =>
    have ha : p.events false = [.access (.read (p.addr ++ 0#2) 4)] := by
      simp [PortCycle.events, PortCycle.access, hrst, hsel, hwe]
    rw [ha, step_access rfl, p.perform_read hwe]
    exact if_pos (portOffset_aligned p.addr)
  | true =>
    have ha : p.events false = [.access (.write (p.addr ++ 0#2) 4 p.wdata)] := by
      simp [PortCycle.events, PortCycle.access, hrst, hsel, hwe]
    rw [ha, step_access rfl, p.perform_write hwe]
    exact if_pos (portOffset_aligned p.addr)

/-- Settles O58: the block's turn comes first in the cycle, and the access is made of the state it leaves. -/
theorem completionTakesEffectFirst : Obligations.CompletionTakesEffectFirst := by
  intro s p w _ ha hrst hsel
  obtain ⟨u, hu⟩ := blockStep_next s
  have hidle := pending_of_blockStep hu
  have hrun : Host.Core.run Sys2Proof.core 2 (s.inWorld (p.events true) s.readLog s.draws) =
      .next (p.perform (u.inWorld [] s.readLog s.draws)) :=
    (run_of_step 1 (step_turn (p.events false) _ _ hu)).trans (run_of_step 0 (step_portCycle hrst hsel _ _))
  rw [← ha] at hrun
  refine ⟨_, _, step_alone hu, hidle, hrun, fun hwe haddr => ?_, fun hwe haddr h0 => ?_, fun hwe haddr hw0 hw1 => ?_,
    fun hwe haddr hw0 => ?_⟩
  · rw [p.perform_read hwe, haddr]
    exact ⟨u.status, rfl, by rw [status_busy, hidle]; rfl⟩
  · rw [p.perform_write hwe, haddr]
    exact congrArg State.pending (offerCommand_of_ready (s := u.inWorld [] s.readLog s.draws) p.wdata hidle h0)
  · rw [p.perform_write hwe, haddr, show windowReg (4#3 ++ 0#2) = .ctrl from rfl, hostWrite, writeCtrl_of_errclr hw0 hw1]
    exact ⟨rfl, rfl, rfl, rfl⟩
  · rw [p.perform_write hwe, haddr, show windowReg (4#3 ++ 0#2) = .ctrl from rfl, hostWrite, writeCtrl_of_srst hw0]
    exact isReset_resetBlock _

end

end Sys2Proof.Machine

/-! PROOF. Reset and hazards (70_reset_and_hazards.md): RESULT read while BUSY = 1 (R119), a clock edge with rst = 1 (R114),
and that every pending command completes (R124), because a step that answers uses up exactly one event and the block's
turn comes when none is left. -/

namespace Sys2Proof.Machine

section
variable {s t : State}

/-! ### RESULT while BUSY = 1 (70_reset_and_hazards.md R119) -/

/-- While BUSY = 1 a read of RESULT is answered with the next unspecified value. -/
theorem step_resultRead_of_busy {es : List Event} (hp : s.pending ≠ none) (h : s.agenda = readEvent .result :: es) :
    step s = .next (s.withAgenda es).answerFree := by
  have hbusy : (s.withAgenda es).busy = true := Option.isSome_iff_ne_none.2 hp
  rw [step_readEvent .result h, hostRead, if_pos ⟨rfl, hbusy⟩]

/-- Settles O45: answering with an unspecified value writes nothing of the block. -/
theorem resultReadWhileBusyIsAFreeValue : Obligations.ResultReadWhileBusyIsAFreeValue :=
  fun _ _ h hp => ⟨_, step_resultRead_of_busy hp h, ⟨rfl, rfl, rfl, rfl, rfl, rfl, rfl⟩, rfl, rfl, rfl⟩

/-! ### A clock edge with rst = 1 (70_reset_and_hazards.md R114) -/

/-- Everything a reset cycle can do: reset the block, and answer a read that falls in it with an unspecified value. -/
theorem hardwareReset_cases (during : Option Access) (s : State) :
    ((∃ off n, during = some (.read off n)) ∧ hardwareReset during s = s.resetBlock.answerFree) ∨
      ((¬∃ off n, during = some (.read off n)) ∧ hardwareReset during s = s.resetBlock) := by
  match during with
  | none => exact .inr ⟨by simp, rfl⟩
  | some (.read off n) => exact .inl ⟨⟨off, n, rfl⟩, rfl⟩
  | some (.write off n w) => exact .inr ⟨by simp, rfl⟩

/-- Settles O51, by whether a read falls in the reset cycle. -/
theorem hardwareResetAbandonsEverything : Obligations.HardwareResetAbandonsEverything := by
  intro s during es h
  refine ⟨_, step_rst h, isReset_hardwareReset during _, ?_⟩
  rcases hardwareReset_cases during (s.withAgenda es) with ⟨hread, e⟩ | ⟨hnone, e⟩ <;> rw [e]
  · exact ⟨rfl, fun _ => rfl, absurd hread⟩
  · exact ⟨rfl, fun hread => absurd hread hnone, fun _ => rfl⟩

/-! ### A step uses up one event (20_memory.md R49, R50) -/

/-- The block's turn leaves the events to come, the answers given and the values drawn alone: it comes out the same in
every world, its own included. -/
theorem sameWorld_blockStep (h : blockStep s = .next t) : SameWorld s t := by
  have hown : t = t.inWorld s.agenda s.readLog s.draws :=
    Host.Outcome.next.inj (h.symm.trans (blockStep_inWorld s.agenda s.readLog s.draws h))
  rw [hown]
  exact ⟨rfl, rfl, rfl⟩

@[simp] theorem offerCommand_agenda (w : Word) (s : State) : (offerCommand w s).agenda = s.agenda := by
  rcases offerCommand_cases w s with ⟨_, e⟩ | ⟨_, _, e⟩ | ⟨_, _, e⟩ <;> simp [e]

@[simp] theorem writeCtrl_agenda (w : Word) (s : State) : (writeCtrl w s).agenda = s.agenda := by
  rcases writeCtrl_cases w s with ⟨_, e⟩ | ⟨_, _, e⟩ | ⟨_, _, e⟩ <;> simp [e]

@[simp] theorem hostWrite_agenda (r : WindowReg) (w : Word) (s : State) : (hostWrite r w s).agenda = s.agenda := by
  rcases hostWrite_cases r w s with ⟨_, e⟩ | ⟨_, e⟩ | ⟨_, _, e⟩ <;> simp [e]

@[simp] theorem hostRead_agenda (r : WindowReg) (s : State) : (hostRead r s).agenda = s.agenda := by
  rcases hostRead_cases r s with ⟨e, _⟩ | ⟨e, _⟩ <;> simp [e]

@[simp] theorem hardwareReset_agenda (during : Option Access) (s : State) :
    (hardwareReset during s).agenda = s.agenda := by
  rcases hardwareReset_cases during s with ⟨_, e⟩ | ⟨_, e⟩ <;> simp [e]

theorem agenda_of_hostAccess {a : Access} (h : hostAccess a s = .next t) : t.agenda = s.agenda := by
  rcases hostAccess_cases a s with ⟨_, e⟩ | ⟨off, _, e⟩ | ⟨off, w, _, e⟩ <;> rw [e] at h <;> cases h
  · exact hostRead_agenda _ s
  · exact hostWrite_agenda _ w s

/-- A step takes the next event off the agenda, if there is one, and puts none on it. -/
theorem agenda_of_step (h : step s = .next t) : t.agenda = s.agenda.tail := by
  cases ha : s.agenda with
  | nil => exact (sameWorld_blockStep (step_nil ha ▸ h)).agenda.trans ha
  | cons e es =>
    cases e with
    | blockTurn => exact (sameWorld_blockStep (step_blockTurn ha ▸ h)).agenda
    | access a => exact agenda_of_hostAccess (step_access ha ▸ h)
    | rst during =>
      cases (step_rst ha).symm.trans h
      exact hardwareReset_agenda during _

/-! ### Every command completes (70_reset_and_hazards.md R124, R126) -/

/-- A state whose events are all supported steps. -/
theorem step_next_of_supported (h : ∀ e ∈ s.agenda, e.supported = true) : ∃ t, step s = .next t := by
  refine step_next fun a es ha hm => ?_
  have hs : a.supported = true := h (.access a) (by simp [ha])
  simp [a.misfit_iff.1 hm] at hs

/-- With no event left the block's turn ends the run. -/
theorem runEnded_of_step (ha : s.agenda = []) (h : step s = .next t) : RunEnded t :=
  ⟨by rw [agenda_of_step h, ha, List.tail_nil], pending_of_blockStep (step_nil ha ▸ h)⟩

/-- Settles O56, by induction on the events to come: each step uses up one, and the last is the block's turn. -/
theorem everyCommandCompletes : Obligations.EveryCommandCompletes := by
  intro s
  induction hes : s.agenda generalizing s with
  | nil =>
    intro hsup
    obtain ⟨t, ht⟩ := step_next_of_supported (hes ▸ hsup)
    exact ⟨t, run_of_step 0 ht, runEnded_of_step hes ht⟩
  | cons e es ih =>
    intro hsup
    obtain ⟨u, hu⟩ := step_next_of_supported (hes ▸ hsup)
    have hrest : u.agenda = es := by rw [agenda_of_step hu, hes, List.tail_cons]
    obtain ⟨t, ht, hended⟩ := ih u hrest fun e' he' => hsup e' (List.mem_cons_of_mem e he')
    exact ⟨t, (run_of_step (es.length + 1) hu).trans ht, hended⟩

end

end Sys2Proof.Machine
